-- ==== Sys2Proof/Word.lean ====
section
/-! DEFINITION. The words of the block: fixed widths K = 6, N = 10, R = 4, N + 1 = 11 (R6), the request
and response words (R39, R42), matrices as row words (R11), and the small closed sets of names. -/

namespace Sys2Proof

/-- An element of GF(2) (R9): `true` is 1; addition is `xor`, multiplication is `and`. -/
abbrev Bit := Bool

/-- A data word, `K = 6` bits (R6); bit `i` is vector element `i` (R10). -/
abbrev DataWord := BitVec 6
/-- The core of a codeword, `N = 10` bits: data bits 5..0, parity bits 9..6 (R14). -/
abbrev CoreWord := BitVec 10
/-- A codeword or received word, `N + 1 = 11` bits; bit 10 is the overall parity bit (R14, R32). -/
abbrev Codeword := BitVec 11
/-- A syndrome, `R = 4` bits (R14, R80). -/
abbrev Syndrome := BitVec 4
/-- A request word `req[11:0]` (R39). -/
abbrev RequestWord := BitVec 12
/-- A response word `resp[15:0]` (R42). -/
abbrev ResponseWord := BitVec 16

/-- An `a × b` matrix over GF(2), row-major, its dimensions in its type (R11, R60): row `i` is a word
whose bit `j` is column `j` (R11, R32). -/
abbrev Mat (a b : Nat) := Vector (BitVec b) a

/-- The `6 × 10` shape of `G_PRIME` and `G` (R15, R21). -/
abbrev GMat := Mat 6 10
/-- The `4 × 10` shape of `H` (R22). -/
abbrev HMat := Mat 4 10
/-- The `6 × 4` shape of the block `P` (R14, R66). -/
abbrev PMat := Mat 6 4

/-- The construction status (R20). -/
inductive CStatus where
  | failed
  | ready
deriving DecidableEq, Repr, Inhabited

/-- The decoder's status tag (R13, R45): a field of a response, never stored (R25). -/
inductive Status where
  | valid
  | corrected
  | uncorrectable
deriving DecidableEq, Repr

/-- The errors of R47. -/
inductive CodecError where
  | invalidLength
  | constructionFatal
  | dimensionMismatch
deriving DecidableEq, Repr

end Sys2Proof
end

