-- ==== Sys2Proof/Syntax.lean ====
section
/-! DEFINITION. The operations a requester can issue: one constructor per row of the opcode table (R48). -/

namespace Sys2Proof

/-- A decoded request. Every 12-bit word is exactly one of these (R48). -/
inductive Instr where
  /-- ENCODE, format E (R40): `rsvd = req[10:6]`, `data = req[5:0]`. -/
  | encode (rsvd : BitVec 5) (data : DataWord)
  /-- DECODE, format D (R41): `cw = req[10:0]`. -/
  | decode (cw : Codeword)
deriving DecidableEq, Repr

end Sys2Proof
end

