-- ==== Sys2Proof/WellFormed.lean ====
section
/-! DEFINITION. Which operations use no reserved encoding (R40, R49). An ill-formed ENCODE still has a
meaning: it raises InvalidLength (R49), so nothing in the machine refuses it. -/

namespace Sys2Proof

/-- The reserved field of format E "must be `00000`" (R40); DECODE "has no reserved bit" (R41).
DESIGN CHOICE, safe: log entry 12. -/
def Instr.wellFormed : Instr → Bool
  | .encode rsvd _ => rsvd == 0#5
  | .decode _ => true

end Sys2Proof
end

