-- ==== Sys2Proof/Decode.lean ====
section
/-! DEFINITION. Request words to operations and back (R39 to R41, R48). Decoding a request word is total:
"there is no undecodable request word" (R48). Only a number that is no 12-bit word at all is rejected. -/

namespace Sys2Proof

/-- `OP = req[11]` (R39). -/
def opField (req : RequestWord) : Bit := req.getLsbD 11

/-- `RSVD = req[10:6]` of format E (R40). -/
def rsvdField (req : RequestWord) : BitVec 5 := req.extractLsb' 6 5

/-- `DATA = req[5:0]` of format E (R40). -/
def dataField (req : RequestWord) : DataWord := req.extractLsb' 0 6

/-- `CW = req[10:0]` of format D (R41), which is also the whole `PAYLOAD` (R39). -/
def cwField (req : RequestWord) : Codeword := req.extractLsb' 0 11

/-- `decode_request` (R48). -/
def decodeRequest (req : RequestWord) : Instr :=
  if opField req then .decode (cwField req) else .encode (rsvdField req) (dataField req)

/-- Why a number given as a request is none: it does not fit the 12 bits every request has (R39, R51). -/
inductive DecodeReject where
  | widerThanTwelveBits
deriving DecidableEq, Repr

/-- A number on a wider carrier as a request word. A number of 12 bits or fewer is its request word.
A wider one is rejected, not truncated. DESIGN CHOICE, safe: log entry 8. -/
def requestOfNat (n : Nat) : Except DecodeReject RequestWord :=
  if n < 4096 then .ok (BitVec.ofNat 12 n) else .error .widerThanTwelveBits

/-- The decoder on any number. -/
def decodeNat (n : Nat) : Except DecodeReject Instr :=
  match requestOfNat n with
  | .ok req => .ok (decodeRequest req)
  | .error e => .error e

/-- The host's view of the decoder: the low `nbits` bits of `w`, the bits above them zero. The table gives
a row 12 bits, 16 in whole bytes. The block has no bytes (R32), so the number itself is the word. -/
def decodeTableWord (nbits w : Nat) : Option Instr :=
  match decodeNat (w % 2 ^ nbits) with
  | .ok i => some i
  | .error _ => none

/-- The request word of an operation (formats E and D, R40, R41): `{OP, RSVD, DATA}` or `{OP, CW}`. -/
def encodeRequest : Instr → RequestWord
  | .encode rsvd data => (0#1 ++ rsvd ++ data : BitVec (1 + 5 + 6))
  | .decode cw => (1#1 ++ cw : BitVec (1 + 11))

end Sys2Proof
end

