-- ==== Sys2Proof/Machine/Flags.lean ====
section
/-! DEFINITION. The block has no flag register (R19) and no operation writes a flag (R71, R77). What it has
are coded fields: the status tag, the error code and the construction status bit. -/

namespace Sys2Proof.Machine

/-- The `STATUS` field (R45); the code `11` stands for nothing and is never produced. -/
def statusCode : Status → BitVec 2
  | .valid => 0b00#2
  | .corrected => 0b01#2
  | .uncorrectable => 0b10#2

/-- The `ERR` field of an error response (R47); success is `000`, the codes `100` to `111` are reserved. -/
def errorCode : CodecError → BitVec 3
  | .invalidLength => 0b001#3
  | .constructionFatal => 0b010#3
  | .dimensionMismatch => 0b011#3

/-- `CSTATUS` as its bit: `1` READY, `0` FAILED (R20). -/
def cstatusBit : CStatus → BitVec 1
  | .failed => 0#1
  | .ready => 1#1

end Sys2Proof.Machine
end

