-- ==== Sys2Proof/Config.lean ====
section
/-! DEFINITION. What is fixed when the block is built, and the values the spec leaves open. None of these
constants has a body, so nothing can be proved of a value of theirs. -/

namespace Sys2Proof

/-- `G_PRIME` (R7, R15): the build-time matrix, whose 60 bits the spec does not give (D12). The model takes
it as an argument (`State.resetWith`, `stepWith`); this constant is the argument the machine
`Sys2Proof.core` is built with. DEDUCED, safe: log entry 1. -/
opaque Config.gPrime : GMat

/-- FREE VALUE. What `G_ROW` holds after a construction of this `G_PRIME` that failed: "unspecified: any
value; never read by any operation" (R28). DESIGN CHOICE, safe: log entry 2. -/
opaque Config.unspecifiedG : GMat → GMat

/-- FREE VALUE. What `H_ROW` holds after a construction of this `G_PRIME` that failed (R28).
DESIGN CHOICE, safe: log entry 2. -/
opaque Config.unspecifiedH : GMat → HMat

/-- FREE VALUE. `CSTATUS` before construction has completed, of which the spec says nothing a request can
observe (R28, R108). DESIGN CHOICE, safe: log entry 9. -/
opaque Config.powerOnCStatus : CStatus

/-- FREE VALUE. `G_ROW` before construction has completed ("uninitialised", R108).
DESIGN CHOICE, safe: log entry 9. -/
opaque Config.powerOnG : GMat

/-- FREE VALUE. `H_ROW` before construction has completed ("uninitialised", R108).
DESIGN CHOICE, safe: log entry 9. -/
opaque Config.powerOnH : HMat

end Sys2Proof
end

