-- ==== Sys2Proof/Machine/Gf2.lean ====
section
/-! DEFINITION. The GF(2) matrix and vector primitives (R54 to R61): the block's internal datapath. First at
fixed dimensions, where a mismatch cannot be written (R61); then over operands that carry their dimensions,
where a mismatch is the error of R60. -/

namespace Sys2Proof.Machine

/-! ### Words from bits, and the helpers of R59 -/

/-- The word whose bit `i` is `f i` (R10). -/
def bitsOf : (n : Nat) → (Nat → Bit) → BitVec n
  | 0, _ => 0#0
  | n + 1, f => BitVec.cons (f n) (bitsOf n f)

/-- The XOR of bits `v[0]` to `v[n-1]`. -/
def parityUpTo {L : Nat} (v : BitVec L) : Nat → Bit
  | 0 => false
  | n + 1 => v.getLsbD n ^^ parityUpTo v n

/-- `parity_L` (R12, R59). -/
def parity {L : Nat} (v : BitVec L) : Bit := parityUpTo v L

/-- The number of 1 bits among `v[0]` to `v[n-1]`. -/
def popcountUpTo {L : Nat} (v : BitVec L) : Nat → Nat
  | 0 => 0
  | n + 1 => (v.getLsbD n).toNat + popcountUpTo v n

/-- `popcount_L` (R12, R59). -/
def popcount {L : Nat} (v : BitVec L) : Nat := popcountUpTo v L

/-- `onehot_L(j)` (R12, R59): only bit `j` set. -/
def onehot (L j : Nat) : BitVec L := BitVec.twoPow L j

/-! ### Matrices (R11) -/

/-- The matrix with the given rows. -/
def ofRows {a b : Nat} (f : Fin a → BitVec b) : Mat a b := Vector.ofFn f

/-- `row_i(M)` (R11). -/
def row {a b : Nat} (M : Mat a b) (i : Fin a) : BitVec b := M[i]

/-- `M[i][j]` (R11). -/
def bit {a b : Nat} (M : Mat a b) (i : Fin a) (j : Nat) : Bit := (row M i).getLsbD j

/-- `column_j(M)` as a vector over rows (R11). -/
def column {a b : Nat} (M : Mat a b) (j : Nat) : BitVec a :=
  bitsOf a fun i => if h : i < a then bit M ⟨i, h⟩ j else false

/-- `I_m` (R11). -/
def identity (m : Nat) : Mat m m := ofRows fun i => onehot m i

/-- `[A | B]`, `A`'s columns first (R11), hence `A` in the low bits of each row word. -/
def beside {a b c : Nat} (A : Mat a b) (B : Mat a c) : Mat a (c + b) :=
  ofRows fun i => row B i ++ row A i

/-! ### The primitives at fixed dimensions -/

/-- `transpose(M)[j][i] = M[i][j]` (R54). -/
def transpose {a b : Nat} (M : Mat a b) : Mat b a := ofRows fun j => column M j

/-- `dot(u, v) = parity(U & V)` (R55). -/
def dot {L : Nat} (u v : BitVec L) : Bit := parity (u &&& v)

/-- `vecMulMatrix(v, M)`, the product `v · M`: entry `j` is `dot(v, column_j(M))` (R56). -/
def vecMulMatrix {a b : Nat} (v : BitVec a) (M : Mat a b) : BitVec b :=
  bitsOf b fun j => dot v (column M j)

/-- `rowXor(a, b)`, the element-wise sum (R57). -/
def rowXor {L : Nat} (u v : BitVec L) : BitVec L := u ^^^ v

/-- `matMul(A, B)`: `C[i][j] = dot(row_i(A), column_j(B))` (R58). -/
def matMul {a b c : Nat} (A : Mat a b) (B : Mat b c) : Mat a c :=
  ofRows fun i => bitsOf c fun j => dot (row A i) (column B j)

/-! ### The primitives over operands that carry their dimensions (R60)

The block never applies these (R61); they are the source's algebra, with its DimensionMismatch (R94).
Log entry 14. -/

/-- A vector of any length, the length part of it. -/
structure AnyVec where
  len : Nat
  bits : BitVec len
deriving DecidableEq, Repr

/-- A rectangular matrix of any dimensions, the dimensions part of it (R11, R60). -/
structure AnyMat where
  rows : Nat
  cols : Nat
  mat : Mat rows cols
deriving DecidableEq, Repr

/-- `transpose` (R54): no error. -/
def anyTranspose (M : AnyMat) : AnyMat := ⟨M.cols, M.rows, transpose M.mat⟩

/-- `dot` (R55): DimensionMismatch when the lengths differ. -/
def anyDot (u v : AnyVec) : Except CodecError Bit :=
  if h : v.len = u.len then .ok (dot u.bits (v.bits.cast h)) else .error .dimensionMismatch

/-- `vecMulMatrix` (R56): "requires `len(v) == rows(M)`". -/
def anyVecMulMatrix (v : AnyVec) (M : AnyMat) : Except CodecError AnyVec :=
  if h : v.len = M.rows then .ok ⟨M.cols, vecMulMatrix (v.bits.cast h) M.mat⟩
  else .error .dimensionMismatch

/-- `rowXor` (R57): DimensionMismatch when the lengths differ. -/
def anyRowXor (u v : AnyVec) : Except CodecError AnyVec :=
  if h : v.len = u.len then .ok ⟨u.len, rowXor u.bits (v.bits.cast h)⟩
  else .error .dimensionMismatch

/-- `matMul` (R58): DimensionMismatch when `cols(A) != rows(B)`. -/
def anyMatMul (A B : AnyMat) : Except CodecError AnyMat :=
  if h : B.rows = A.cols then .ok ⟨A.rows, B.cols, matMul A.mat (B.mat.cast h)⟩
  else .error .dimensionMismatch

end Sys2Proof.Machine
end

