-- ==== Sys2Proof/Machine/Deriver.lean ====
section
/-! DEFINITION. The systematic form deriver (R62 to R69): from `G_PRIME` to `G` and `H`. Construction runs it
at reset (R105); no request does. -/

namespace Sys2Proof.Machine

/-! ### Elimination (R63) -/

/-- The six indices 0 to 5, in order: the target columns and the candidate pivot rows of R63. -/
def sixIndices : List (Fin 6) := [0, 1, 2, 3, 4, 5]

/-- The pivot row for column `c`: the smallest `i` in `c..5` with `M[i][c] = 1` (R63, D10). -/
def findPivot (M : GMat) (c : Fin 6) : Option (Fin 6) :=
  sixIndices.find? fun i => decide (c ≤ i) && bit M i c

/-- `swap M[c] and M[p]` (R63); nothing moves when `p = c`. -/
def swapRows (M : GMat) (c p : Fin 6) : GMat :=
  ofRows fun i => row M (if i = c then p else if i = p then c else i)

/-- `for i in 0..5, i != c: if M[i][c] == 1: M[i] <- rowXor(M[i], M[c])` (R63). Row `c` does not change
while the loop runs, so the rows can be taken all at once. -/
def clearColumn (M : GMat) (c : Fin 6) : GMat :=
  ofRows fun i => if i ≠ c ∧ bit M i c = true then rowXor (row M i) (row M c) else row M i

/-- One pass of the loop of R63 over target column `c`; no pivot is ConstructionFatal (R65). -/
def eliminateColumn (M : GMat) (c : Fin 6) : Except CodecError GMat :=
  match findPivot M c with
  | none => .error .constructionFatal
  | some p => .ok (clearColumn (swapRows M c p) c)

/-- The loop of R63 over the given target columns. -/
def eliminateColumns : List (Fin 6) → GMat → Except CodecError GMat
  | [], M => .ok M
  | c :: cs, M =>
    match eliminateColumn M c with
    | .error e => .error e
    | .ok M' => eliminateColumns cs M'

/-- `eliminate` (R63): the loop over the columns 0 to 5 of the leading block, starting from `G_PRIME`. -/
def eliminate (gp : GMat) : Except CodecError GMat :=
  eliminateColumns sixIndices gp

/-! ### The blocks of a generator matrix, and H (R66) -/

/-- The leading `6 × 6` block, columns 0 to 5 (R16). -/
def leadingBlock (G : GMat) : Mat 6 6 := ofRows fun i => (row G i).extractLsb' 0 6

/-- `P[j][i] = G[j][6+i]`, the block right of the leading one (R66, C1). -/
def parityBlock (G : GMat) : PMat := ofRows fun j => (row G j).extractLsb' 6 4

/-- `H = [Pᵗ | I_4]` (R66): row `i` is `{onehot_4(i), row i of Pᵗ}` (R69). -/
def deriveH (G : GMat) : HMat := beside (transpose (parityBlock G)) (identity 4)

/-! ### What construction leaves in the registers (R28, R69) -/

/-- `CSTATUS` after construction. -/
def constructedCStatus (gp : GMat) : CStatus :=
  match eliminate gp with
  | .ok _ => .ready
  | .error _ => .failed

/-- `G_ROW` after construction: the systematic `G`, or any value when construction failed. -/
def constructedG (gp : GMat) : GMat :=
  match eliminate gp with
  | .ok G => G
  | .error _ => Config.unspecifiedG gp

/-- `H_ROW` after construction: `[Pᵗ | I_4]`, or any value when construction failed. -/
def constructedH (gp : GMat) : HMat :=
  match eliminate gp with
  | .ok G => deriveH G
  | .error _ => Config.unspecifiedH gp

end Sys2Proof.Machine
end

