-- ==== Sys2Proof/Machine/State.lean ====
section
/-! DEFINITION. The state of the block (R19) and of its interface (R27), the reasons a step can stop, and the
state after reset (R28). -/

namespace Sys2Proof.Machine

/-- Whether construction has completed (R28, R108). A model's own field: log entry 3. -/
inductive Phase where
  | beforeConstruction
  | constructed
deriving DecidableEq, Repr

/-- What a host sends the block (R27, R113). -/
inductive Event where
  /-- The reset event, which runs construction (R105). -/
  | reset
  /-- One request word on `req` (R39). -/
  | request (req : RequestWord)
deriving DecidableEq, Repr

/-- The registers of R19, and the interface of R27 as data. -/
structure State where
  /-- Whether construction has completed (R108). The model's own, log entry 3. -/
  phase : Phase
  /-- `CSTATUS` (R20). -/
  cstatus : CStatus
  /-- `G_ROW[0..5]` (R21). -/
  gRow : GMat
  /-- `H_ROW[0..3]` (R22). -/
  hRow : HMat
  /-- What the host has sent and the block has not taken yet, oldest first. The model's own, log entry 4. -/
  inputs : List Event
  /-- The words given on `resp` so far, oldest first; no operation reads them (R25). The model's own,
  log entry 5. -/
  responses : List ResponseWord
deriving DecidableEq, Repr

/-- The reasons a step stops with a fault: there is none. No operation stops the block (R97), and a request
sent before construction has completed is no stop but a wait (R108, log entry 3). -/
inductive Fault where
deriving DecidableEq, Repr

/-- The reasons a step is refused. -/
inductive Refusal where
  /-- Raised by an arm of `exec` for an instruction without a meaning; no arm does. Safe. -/
  | notModelled (mnemonic : String)
deriving DecidableEq, Repr

/-- The state right after a reset of a block built with `gp` (R28, R105), with nothing sent and nothing
answered yet (DESIGN CHOICE, log entries 4 and 5). -/
def State.resetWith (gp : GMat) : State :=
  { phase := .constructed
    cstatus := constructedCStatus gp
    gRow := constructedG gp
    hRow := constructedH gp
    inputs := []
    responses := [] }

/-- The state right after reset of the block built with `Config.gPrime` (R7, R28). -/
def State.reset : State := State.resetWith Config.gPrime

/-- A built block before its first reset (R109): its registers hold nothing the spec names (R108).
DESIGN CHOICE, safe: log entry 9. -/
def State.powerOn : State :=
  { phase := .beforeConstruction
    cstatus := Config.powerOnCStatus
    gRow := Config.powerOnG
    hRow := Config.powerOnH
    inputs := []
    responses := [] }

end Sys2Proof.Machine
end

