-- ==== Sys2Proof/Machine/Ops.lean ====
section
/-! DEFINITION. The operations shared by the meanings: response words (R42 to R47), answering a request
or raising an error, running construction (R69, R105), taking the next input, and the host's side (R113). -/

namespace Sys2Proof.Machine

/-! ### Responses -/

/-- The answer to one request, before it is laid out as a word. -/
inductive Response where
  /-- ENCODE succeeded (R43). -/
  | codeword (c : Codeword)
  /-- DECODE succeeded (R44): `Option<Vector[6]>` and `Status`. -/
  | decoded (data : Option DataWord) (st : Status)
  /-- The request met an error (R47). -/
  | error (e : CodecError)
deriving DecidableEq, Repr

/-- `PRESENT` (R44). -/
def presentBit : Option DataWord → BitVec 1
  | some _ => 1#1
  | none => 0#1

/-- `DATA` (R44): `000000` when there is no data (D7). -/
def dataBits : Option DataWord → DataWord
  | some d => d
  | none => 0#6

/-- The response word: `{ERR, 00, CODEWORD}` (R43), `{ERR, 0000, STATUS, PRESENT, DATA}` (R44), or
`{ERR, 0}` (R47). -/
def responseWord : Response → ResponseWord
  | .codeword c => (0b000#3 ++ 0b00#2 ++ c : BitVec (3 + 2 + 11))
  | .decoded data st =>
    (0b000#3 ++ 0b0000#4 ++ statusCode st ++ presentBit data ++ dataBits data :
      BitVec (3 + 4 + 2 + 1 + 6))
  | .error e => (errorCode e ++ 0#13 : BitVec (3 + 13))

/-- `ERR = resp[15:13]` (R42). -/
def errField (resp : ResponseWord) : BitVec 3 := resp.extractLsb' 13 3

/-- `resp[12:0]` (R42). -/
def bodyField (resp : ResponseWord) : BitVec 13 := resp.extractLsb' 0 13

/-- `CODEWORD = resp[10:0]` of an ENCODE success response (R43). -/
def codewordField (resp : ResponseWord) : Codeword := resp.extractLsb' 0 11

/-- `STATUS = resp[8:7]` of a DECODE success response (R44). -/
def statusField (resp : ResponseWord) : BitVec 2 := resp.extractLsb' 7 2

/-- `PRESENT = resp[6]` of a DECODE success response (R44). -/
def presentField (resp : ResponseWord) : Bit := resp.getLsbD 6

/-- `DATA = resp[5:0]` of a DECODE success response (R44). -/
def respDataField (resp : ResponseWord) : DataWord := resp.extractLsb' 0 6

/-! ### What an operation does to the state -/

/-- The one end every operation has (R12): `return r`, or `raise E` when `r` is an error response. The response goes
out and nothing else changes (R24, R93). The block has no trap (R98): an error saves no state and transfers control
nowhere, and there is nothing to return from (R99). -/
def State.respond (s : State) (r : Response) : State :=
  { s with responses := s.responses ++ [responseWord r] }

/-! ### Construction (R69, R105) -/

/-- `construct(GP)` (R69): writes `CSTATUS`, `G_ROW` and `H_ROW`; "nothing else exists to be written" (R105). -/
def State.construct (gp : GMat) (s : State) : State :=
  { s with
    phase := .constructed
    cstatus := constructedCStatus gp
    gRow := constructedG gp
    hRow := constructedH gp }

/-! ### Taking the next input -/

/-- What the block does next. -/
inductive Move where
  /-- There is nothing the block can take: it waits (R106, R108). -/
  | wait
  /-- A reset event is next (R105); `rest` is what stays pending. -/
  | construct (rest : List Event)
  /-- A request is next and construction has completed; `rest` is what stays pending. -/
  | perform (req : RequestWord) (rest : List Event)
deriving DecidableEq, Repr

/-- The inputs without their first reset event, the requests around it kept in their order; none when no
reset event is pending. -/
def takeReset : List Event → Option (List Event)
  | [] => none
  | .reset :: rest => some rest
  | .request req :: rest => (takeReset rest).map (.request req :: ·)

/-- Once construction has completed, inputs are taken in the order sent, each one whole transaction before or
after a reset (R36, R107). Before that the block accepts no request, and the requester is stuck until
construction completes (R28, R108): the requests stay pending, unanswered, and a reset event is taken from
wherever it stands. Log entries 3 and 4. -/
def State.nextMove (s : State) : Move :=
  match s.phase with
  | .constructed =>
    match s.inputs with
    | [] => .wait
    | .reset :: rest => .construct rest
    | .request req :: rest => .perform req rest
  | .beforeConstruction =>
    match takeReset s.inputs with
    | none => .wait
    | some rest => .construct rest

/-- The state with these inputs pending. -/
def State.withInputs (s : State) (evs : List Event) : State := { s with inputs := evs }

/-! ### The host's side of the interface (R27, R113) -/

/-- The host sends more events. -/
def State.issue (s : State) (evs : List Event) : State := s.withInputs (s.inputs ++ evs)

/-- The output `cstatus`, a level (R27). -/
def State.cstatusPort (s : State) : BitVec 1 := cstatusBit s.cstatus

/-- A block on which construction has completed: this one, or this one constructed. -/
def State.ensureConstructed (gp : GMat) (s : State) : State :=
  match s.phase with
  | .constructed => s
  | .beforeConstruction => s.construct gp

end Sys2Proof.Machine
end

