-- ==== Sys2Proof/Machine/Decoder.lean ====
section
/-! DEFINITION. DECODE (R77 to R87): overall parity check, syndrome, error classification, single-bit-error
locator and correction mux. -/

namespace Sys2Proof.Machine

/-- The core `x = w[9:0]` (R78). -/
def coreOf (w : Codeword) : CoreWord := w.extractLsb' 0 10

/-- The data candidate `x[5:0]` (R78). -/
def dataOf (x : CoreWord) : DataWord := x.extractLsb' 0 6

/-- Stage 1 (R79): the XOR of all 11 bits is 0. -/
def overallOk (w : Codeword) : Bool := !parity w

/-- Stage 2 (R80, C2): `s = H · xᵗ`, `s[i] = dot(row_i(H), x)`. -/
def syndrome (H : HMat) (x : CoreWord) : Syndrome :=
  bitsOf 4 fun i => if h : i < 4 then dot (row H ⟨i, h⟩) x else false

/-- Stage 4 (R84): the AND over the rows of the row mask where the syndrome bit is 1 and of its complement
where it is 0. Bit `j` says that column `j` equals the syndrome. -/
def matchMask (H : HMat) (s : Syndrome) : CoreWord :=
  let term (i : Fin 4) : CoreWord := if s.getLsbD i then row H i else ~~~row H i
  BitVec.allOnes 10 &&& term 0 &&& term 1 &&& term 2 &&& term 3

/-- The locator and the correction mux (R84 to R87): exactly one match flips that bit; none or several is
UNCORRECTABLE. -/
def locate (H : HMat) (x : CoreWord) (s : Syndrome) : Option DataWord × Status :=
  if popcount (matchMask H s) = 1 then (some (dataOf (x ^^^ matchMask H s)), .corrected)
  else (none, .uncorrectable)

/-- Stage 3 (R82): the four cases, the last of which asks the locator. -/
def classify (H : HMat) (x : CoreWord) (ok : Bool) (s : Syndrome) : Option DataWord × Status :=
  match ok, decide (s = 0#4) with
  | true, true => (some (dataOf x), .valid)
  | false, true => (some (dataOf x), .corrected)
  | true, false => (none, .uncorrectable)
  | false, false => locate H x s

/-- `decode(w)` (R77). -/
def decodeWord (H : HMat) (w : Codeword) : Option DataWord × Status :=
  classify H (coreOf w) (overallOk w) (syndrome H (coreOf w))

/-- DECODE's response (R77): ConstructionFatal on a failed codec (R91), else the decoded word. -/
def decodeResponse (s : State) (cw : Codeword) : Response :=
  match s.cstatus with
  | .failed => .error .constructionFatal
  | .ready => .decoded (decodeWord s.hRow cw).1 (decodeWord s.hRow cw).2

/-- DECODE (R77): answers, and writes no state of the block (R24). -/
def execDecode (cw : Codeword) (s : State) : Host.Outcome State Fault Refusal :=
  .next (s.respond (decodeResponse s cw))

end Sys2Proof.Machine
end

