-- ==== Sys2Proof/Machine/Encoder.lean ====
section
/-! DEFINITION. ENCODE (R71 to R73): systematic G application and overall parity injection. -/

namespace Sys2Proof.Machine

/-- Stage 1 (R72): `core = vecMulMatrix(word, G)`. -/
def systematicCore (G : GMat) (word : DataWord) : CoreWord := vecMulMatrix word G

/-- Stage 2 (R73): `c = {p, core}` with `p = parity_10(core)`. -/
def injectParity (core : CoreWord) : Codeword := BitVec.cons (parity core) core

/-- `encode(word)` (R71). -/
def encodeWord (G : GMat) (word : DataWord) : Codeword := injectParity (systematicCore G word)

/-- ENCODE's response (R71): the checks in the order of R96, then the codeword. -/
def encodeResponse (s : State) (rsvd : BitVec 5) (data : DataWord) : Response :=
  match s.cstatus with
  | .failed => .error .constructionFatal
  | .ready => if rsvd = 0#5 then .codeword (encodeWord s.gRow data) else .error .invalidLength

/-- ENCODE (R71): answers, and writes no state of the block (R24). -/
def execEncode (rsvd : BitVec 5) (data : DataWord) (s : State) : Host.Outcome State Fault Refusal :=
  .next (s.respond (encodeResponse s rsvd data))

end Sys2Proof.Machine
end

