-- ==== Sys2Proof/Machine/Dispatch.lean ====
section
/-! DEFINITION. The one match from an operation to its meaning (R48). -/

namespace Sys2Proof.Machine

def exec (i : Instr) (s : State) : Host.Outcome State Fault Refusal :=
  match i with
  | .encode rsvd data => Sys2Proof.Machine.execEncode rsvd data s
  | .decode cw => Sys2Proof.Machine.execDecode cw s

end Sys2Proof.Machine
end

