-- ==== Sys2Proof/Machine/Step.lean ====
section
/-! DEFINITION. One step of the block: one input taken, or waiting. -/

namespace Sys2Proof.Machine

/-- One step of the block built with `gp`. Waiting changes nothing (R104, R106), requests that are stuck until
construction completes included (R108); a reset event runs construction on the same `G_PRIME` (R105, R107); a
request is decoded and performed (R36, R48). -/
def stepWith (gp : GMat) (s : State) : Host.Outcome State Fault Refusal :=
  match s.nextMove with
  | .wait => .next s
  | .construct rest => .next ((s.withInputs rest).construct gp)
  | .perform req rest => exec (decodeRequest req) (s.withInputs rest)

/-- One step of the block built with `Config.gPrime` (R7). -/
def step : State → Host.Outcome State Fault Refusal := stepWith Config.gPrime

/-- `s` with the request `w` sent so that the very next step performs it: first among the pending inputs,
on a constructed block. A number wider than a request word is no request (R39), and nothing is sent.
Log entry 7. -/
def State.withFetchWord (s : State) (nbits w : Nat) : State :=
  match requestOfNat (w % 2 ^ nbits) with
  | .ok req => (s.ensureConstructed Config.gPrime).withInputs (.request req :: s.inputs)
  | .error _ => s

end Sys2Proof.Machine
end

