-- ==== Sys2Proof/Machine/Reference.lean ====
section
/-! DEFINITION. The reference instance of R18: "the spec's own choice, used only by `95_test_vectors.md`". It is not
the machine's `G_PRIME`, which the source does not give (R7; `Config.gPrime`): a block is built with it where a
claim or a test says so (`State.resetWith gPrimeRef`, `stepWith gPrimeRef`). -/

namespace Sys2Proof.Machine

/-- `G'_ref` (R18): non-systematic, and its elimination needs a row swap. -/
def gPrimeRef : GMat := #v[0x306, 0x103, 0x2C4, 0x3F8, 0x350, 0x361]

/-- `G_ref` (R18): systematic, the result of R62 to R64 on `G'_ref`. -/
def gRef : GMat := #v[0x0C1, 0x1C2, 0x2C4, 0x308, 0x350, 0x3A0]

/-- `P_ref` (R18): columns 6 to 9 of `G_ref`, each row `(P[j][0], P[j][1], P[j][2], P[j][3])`. -/
def pRef : PMat := #v[0x3, 0x7, 0xB, 0xC, 0xD, 0xE]

/-- `H_ref = [P_refᵗ | I_4]` (R18). -/
def hRef : HMat := #v[0x057, 0x0A7, 0x13A, 0x23C]

/-- The columns 0 to 9 of `H_ref` as syndrome words, bit `i` = row `i` (R18). -/
def hRefColumns : List Syndrome := [0x3, 0x7, 0xB, 0xC, 0xD, 0xE, 0x1, 0x2, 0x4, 0x8]

/-- The nonzero syndrome words that are no column of `H_ref` (R18). -/
def hRefUnused : List Syndrome := [0x5, 0x6, 0x9, 0xA, 0xF]

end Sys2Proof.Machine
end

