-- ==== Sys2Proof/Machine/Operands.lean ====
section
/-! DEFINITION. The operand forms. A request's operands are fields of its word taken verbatim (R50;
`Sys2Proof/Decode.lean`). The other two forms are the source's list operands (R53) and the assembler's
tuple and hex operands (R52); neither is a form a request has. -/

namespace Sys2Proof.Machine

/-! ### List-level operands (R53) -/

/-- A list of bits, element 0 first, as a vector of length `L`; InvalidLength when the list has another
length, "before reading any element" (R53). -/
def listOperand (L : Nat) (bits : List Bit) : Except CodecError (BitVec L) :=
  if bits.length = L then .ok (bitsOf L fun i => bits.getD i false) else .error .invalidLength

/-- A word as a list of bits, element 0 first (R10). -/
def toBits {L : Nat} (v : BitVec L) : List Bit := (List.range L).map v.getLsbD

/-- A list-level call: ConstructionFatal, then the length check (R53, R96), then `op`. Before construction has
completed there is no response: R53 does not say what a call then gives, and R108 says it of a request. DESIGN
CHOICE, safe: log entry 16. -/
def listCall (L : Nat) (s : State) (bits : List Bit) (op : BitVec L → Response) : Option Response :=
  match s.phase, s.cstatus with
  | .beforeConstruction, _ => none
  | .constructed, .failed => some (.error .constructionFatal)
  | .constructed, .ready =>
    match listOperand L bits with
    | .error e => some (.error e)
    | .ok v => some (op v)

/-- The source's `encode(word: Vector[6])` on a list (R53); none before construction (DESIGN CHOICE, log entry
16). -/
def encodeCall (s : State) (bits : List Bit) : Option Response :=
  listCall 6 s bits fun word => .codeword (encodeWord s.gRow word)

/-- The source's `decode(codeword: Vector[11])` on a list (R53); none before construction (DESIGN CHOICE, log
entry 16). -/
def decodeCall (s : State) (bits : List Bit) : Option Response :=
  listCall 11 s bits fun w => .decoded (decodeWord s.hRow w).1 (decodeWord s.hRow w).2

/-! ### Assembler operands (R52) -/

/-- An operand as it is written: a tuple, element 0 first, or a hex word. -/
inductive AsmOperand where
  | tuple (bits : List Bit)
  | hex (n : Nat)
deriving DecidableEq, Repr

/-- A line of the spec's syntax. -/
inductive AsmLine where
  | encode (operand : AsmOperand)
  | decode (operand : AsmOperand)
deriving DecidableEq, Repr

/-- `zext_11(operand)`, where a tuple must have the `L` elements its operation takes. A tuple of another
length is no syntax of R52 and a hex word above `0x7FF` does not fit 11 bits: neither assembles.
DESIGN CHOICE, safe: log entry 15. -/
def asmPayload (L : Nat) : AsmOperand → Option (BitVec 11)
  | .tuple bits =>
    if bits.length = L then some ((bitsOf L fun i => bits.getD i false).setWidth 11) else none
  | .hex n => if n < 2048 then some (BitVec.ofNat 11 n) else none

/-- The assembled request `{OP, zext_11(operand)}` (R52). -/
def assemble : AsmLine → Option RequestWord
  | .encode o => (asmPayload 6 o).map fun p => (0#1 ++ p : BitVec (1 + 11))
  | .decode o => (asmPayload 11 o).map fun p => (1#1 ++ p : BitVec (1 + 11))

end Sys2Proof.Machine
end

