-- ==== Sys2Proof/Safety.lean ====
section
/-! DEFINITION. The terms claims are stated in: the constraints on `G_PRIME` (R16, R17), the invariants of a
constructed block (R21 to R24), the properties the source says a test suite must check (R89), the answer a
request gets, and what a safe step is. -/

namespace Sys2Proof.Machine

/-! ### Constraints on matrices -/

/-- A square matrix invertible over GF(2), on both sides (R16). -/
def Invertible (A : Mat 6 6) : Prop :=
  ∃ B : Mat 6 6, matMul B A = identity 6 ∧ matMul A B = identity 6

/-- INV (R16): the leading block of `G_PRIME` is invertible. -/
def Inv (gp : GMat) : Prop := Invertible (leadingBlock gp)

/-- `G = [I_6 | P]`: "the leading `k × k` submatrix equals the identity matrix" (R21). -/
abbrev Systematic (G : GMat) : Prop := leadingBlock G = identity 6

/-- WF_SECDED (R17): "the 10 columns of H are nonzero and pairwise distinct". -/
abbrev WfSecded (H : HMat) : Prop :=
  (∀ j : Fin 10, column H j ≠ 0#4) ∧ ∀ j k : Fin 10, j ≠ k → column H j ≠ column H k

/-- WF_SECDED said of P (R17): the rows are pairwise distinct and each has at least two 1 bits. -/
abbrev WfParity (P : PMat) : Prop :=
  (∀ i k : Fin 6, i ≠ k → row P i ≠ row P k) ∧ ∀ i : Fin 6, 2 ≤ popcount (row P i)

/-- The constraint of §8 scenario 1 (R17): `P[1] ^ P[2] ^ P[4] ^ P[5] = (1,1,1,1)`. -/
abbrev ScenarioOne (P : PMat) : Prop :=
  row P 1 ^^^ row P 2 ^^^ row P 4 ^^^ row P 5 = 0b1111#4

/-- The XOR of the rows of `M` that the 1 bits of `v` select (R56, R72). -/
def xorRows {a b : Nat} (M : Mat a b) (v : BitVec a) : BitVec b :=
  (List.finRange a).foldl (fun acc (i : Fin a) => if v.getLsbD i then acc ^^^ row M i else acc) 0#b

/-- The XOR of the columns of `H` at the positions where `e` has a 1 (R81). -/
def xorColumns (H : HMat) (e : CoreWord) : Syndrome :=
  (List.range 10).foldl (fun acc j => if e.getLsbD j then acc ^^^ column H j else acc) 0#4

/-! ### The properties of R89, for one pair of matrices -/

/-- "Round trip" (R89). -/
def RoundTrip (G : GMat) (H : HMat) : Prop :=
  ∀ w : DataWord, decodeWord H (encodeWord G w) = (some w, .valid)

/-- "Single-bit correction" (R89): every word, every position of the 11. -/
def SingleBitCorrection (G : GMat) (H : HMat) : Prop :=
  ∀ (w : DataWord) (i : Fin 11),
    decodeWord H (encodeWord G w ^^^ onehot 11 i) = (some w, .corrected)

/-- "Double-bit detection" (R89): every word, every two distinct positions. -/
def DoubleBitDetection (G : GMat) (H : HMat) : Prop :=
  ∀ (w : DataWord) (i j : Fin 11), i ≠ j →
    decodeWord H (encodeWord G w ^^^ onehot 11 i ^^^ onehot 11 j) = (none, .uncorrectable)

/-! ### Invariants of the block -/

/-- A READY block's matrices have the shapes of R21 and R22: `G` is systematic and `H` is derived from it. -/
def Structural (s : State) : Prop :=
  s.phase = .constructed → s.cstatus = .ready → Systematic s.gRow ∧ s.hRow = deriveH s.gRow

/-- The registers hold what construction from `gp` left in them (R24, R28); of the matrices of a FAILED block
nothing is said, as they hold any value. -/
def HoldsConstruction (gp : GMat) (s : State) : Prop :=
  s.phase = .constructed →
    s.cstatus = constructedCStatus gp ∧
      (s.cstatus = .ready → s.gRow = constructedG gp ∧ s.hRow = constructedH gp)

/-- The same block state but for the interface lists: what no request may change (R24). -/
def SameBlock (s t : State) : Prop :=
  t.phase = s.phase ∧ t.cstatus = s.cstatus ∧ t.gRow = s.gRow ∧ t.hRow = s.hRow

/-! ### Answers and runs -/

/-- The response to a decoded request, from the state alone (R35). -/
def answerOf (s : State) : Instr → Response
  | .encode rsvd data => encodeResponse s rsvd data
  | .decode cw => decodeResponse s cw

/-- The response word a request gets in a state (R27). -/
def answer (s : State) (req : RequestWord) : ResponseWord :=
  responseWord (answerOf s (decodeRequest req))

/-- The requests among a list of inputs, in order. -/
def requestsOf : List Event → List RequestWord
  | [] => []
  | .reset :: evs => requestsOf evs
  | .request req :: evs => req :: requestsOf evs

/-- `n` steps of the block built with `gp`. -/
def runWith (gp : GMat) : Nat → State → Host.Outcome State Fault Refusal
  | 0, s => .next s
  | n + 1, s =>
    match stepWith gp s with
    | .next t => runWith gp n t
    | .fault r => .fault r
    | .refused r => .refused r

/-- A safe step: the block goes on. -/
def SafeStep (gp : GMat) (s : State) : Prop := ∃ t, stepWith gp s = .next t

end Sys2Proof.Machine
end

