-- ==== Sys2Proof/Certificates/Slice0/Obligations.lean ====
section
/-! DEFINITION. The statements for the provers, in the order of OBLIGATIONS.json. Each docstring names the rule
of spec/ it formalises. A response word is written out as the spec lays it out: `0#5 ++ c` is an ENCODE success
(R43), `0#7 ++ status ++ present ++ data` a DECODE success (R44), `0x2000` InvalidLength and `0x4000`
ConstructionFatal (R47). -/

open Sys2Proof Sys2Proof.Machine

/-! ### Requests -/

/-- Words written out from formats E and D (R40, R41), and what they decode to. -/
def Obligations.DecodingOfWrittenOutWords : Prop :=
  decodeRequest 0b000000110110#12 = .encode 0b00000#5 0b110110#6 ∧
  decodeRequest 0b010000000001#12 = .encode 0b10000#5 0b000001#6 ∧
  decodeRequest 0b101111110010#12 = .decode 0b01111110010#11 ∧
  decodeRequest 0b110000000001#12 = .decode 0b10000000001#11

/-- R39 to R41, R48: decode and encode are inverse on every operation, reserved fields included, and on every
12-bit word, so each word is exactly one operation. -/
def Obligations.RequestWordsAndOperationsAreInverse : Prop :=
  (∀ i : Instr, decodeRequest (encodeRequest i) = i) ∧
  (∀ req : RequestWord, encodeRequest (decodeRequest req) = req)

/-- R36, R48: with a request first among the inputs of a constructed block, a step is `exec` of the decoded
request, that input taken; nothing else is added around it. -/
def Obligations.StepPerformsDecodedRequest : Prop :=
  ∀ (gp : GMat) (s : State) (req : RequestWord) (rest : List Event),
    s.phase = .constructed → s.inputs = .request req :: rest →
      stepWith gp s = exec (decodeRequest req) { s with inputs := rest } ∧
      step s = exec (decodeRequest req) { s with inputs := rest }

/-- From R108: a request sent before construction has completed gets no response, and none is ever answered with values
from uninitialised registers: runs of any length from states with other contents of `CSTATUS`, `G_ROW` and `H_ROW`
before construction give the same responses. The rest is the model's reading, DEDUCED in log entry 3: being stuck is
a step that waits, so that without a reset event no run of any length does anything; no pending request is dropped;
and construction completes only by a reset event. -/
def Obligations.RequestsBeforeConstructionGetNoResponse : Prop :=
  ∀ (gp : GMat) (s : State), s.phase = .beforeConstruction →
    (∀ t, stepWith gp s = .next t →
      t.responses = s.responses ∧ requestsOf t.inputs = requestsOf s.inputs ∧
        (t.phase = .constructed → .reset ∈ s.inputs)) ∧
    (.reset ∉ s.inputs → ∀ n, runWith gp n s = .next s) ∧
    (∀ (n : Nat) (c : CStatus) (G : GMat) (H : HMat), ∃ t t' : State,
      runWith gp n s = .next t ∧ runWith gp n { s with cstatus := c, gRow := G, hRow := H } = .next t' ∧
        t.responses = t'.responses)

/-- R104, R106, R108: with nothing to take, the block waits, its state unchanged: when nothing is sent, and when requests
are sent before construction and no reset event is. That waiting is a step is DEDUCED (log entries 3 and 6). -/
def Obligations.BlockWithNothingToTakeWaits : Prop :=
  ∀ (gp : GMat) (s : State),
    (s.inputs = [] ∨ s.phase = .beforeConstruction ∧ .reset ∉ s.inputs) → stepWith gp s = .next s

/-- R97, R98: every step of every state goes on, and construction stays complete once it is. That a step before
construction goes on, waiting, is DEDUCED (log entry 3). -/
def Obligations.EveryStepGoesOn : Prop :=
  ∀ (gp : GMat) (s : State),
    ∃ t, stepWith gp s = .next t ∧ (s.phase = .constructed → t.phase = .constructed)

/-! ### ENCODE and DECODE complete, with their results -/

/-- R71: ENCODE, with its checks in order and its corner cases. On a READY block with the reserved field zero,
`core = vecMulMatrix(word, G)`, `c = {parity(core), core}`, the response is `{000, 00, c}`, and nothing else of the
state changes. -/
def Obligations.EncodeAnswersTheCodeword : Prop :=
  (∀ (s : State) (data : DataWord), s.cstatus = .ready →
    exec (.encode 0#5 data) s =
      .next { s with
        responses := s.responses ++
          [0#5 ++ BitVec.cons (parity (vecMulMatrix data s.gRow)) (vecMulMatrix data s.gRow)] }) ∧
  (∀ (s : State) (rsvd : BitVec 5) (data : DataWord), s.cstatus = .failed →
    exec (.encode rsvd data) s = .next { s with responses := s.responses ++ [0x4000#16] }) ∧
  (∀ (s : State) (rsvd : BitVec 5) (data : DataWord), s.cstatus = .ready → rsvd ≠ 0#5 →
    exec (.encode rsvd data) s = .next { s with responses := s.responses ++ [0x2000#16] }) ∧
  (∀ s : State, s.cstatus = .ready →
    exec (.encode 0#5 0#6) s = .next { s with responses := s.responses ++ [0x0000#16] }) ∧
  (∀ (s : State) (j : Fin 6), s.cstatus = .ready →
    exec (.encode 0#5 (onehot 6 j)) s =
      .next { s with
        responses := s.responses ++ [0#5 ++ BitVec.cons (parity (row s.gRow j)) (row s.gRow j)] }) ∧
  (∀ s : State, s.cstatus = .ready → Systematic s.gRow → ScenarioOne (parityBlock s.gRow) →
    exec (.encode 0b00000#5 0b110110#6) s = .next { s with responses := s.responses ++ [0x03F6#16] })

/-- R49: a request word with `OP = 0` and a reserved field that is not zero, on a READY block, encodes nothing and
writes nothing. No other request word uses a reserved encoding. -/
def Obligations.ReservedEncodingsAnswerInvalidLength : Prop :=
  (∀ (s : State) (req : RequestWord), s.cstatus = .ready → req.getLsbD 11 = false →
    req.extractLsb' 6 5 ≠ 0#5 →
      exec (decodeRequest req) s = .next { s with responses := s.responses ++ [0x2000#16] }) ∧
  (∀ req : RequestWord, (decodeRequest req).wellFormed = false ↔
    req.getLsbD 11 = false ∧ req.extractLsb' 6 5 ≠ 0#5)

/-- R77, R82, R84 to R87: DECODE on a READY block, for every received word and whatever `H_ROW` holds. The
syndrome bit of row `i` is `dot(row_i(H), x)`; column `j` matches when it equals the syndrome in every row. -/
def Obligations.DecodeAnswersByErrorClass : Prop :=
  ∀ (s : State) (cw : Codeword), s.cstatus = .ready →
    let x : CoreWord := cw.extractLsb' 0 10
    let zero : Prop := ∀ i : Fin 4, dot (row s.hRow i) x = false
    let matching (j : Fin 10) : Prop := ∀ i : Fin 4, bit s.hRow i j = dot (row s.hRow i) x
    let answers (resp : ResponseWord) : Prop :=
      exec (.decode cw) s = .next { s with responses := s.responses ++ [resp] }
    (parity cw = false → zero → answers (0#7 ++ 0b00#2 ++ 1#1 ++ x.extractLsb' 0 6)) ∧
    (parity cw = true → zero → answers (0#7 ++ 0b01#2 ++ 1#1 ++ x.extractLsb' 0 6)) ∧
    (parity cw = false → ¬zero → answers 0x0100#16) ∧
    (∀ j : Fin 10, parity cw = true → ¬zero → matching j → (∀ k, matching k → k = j) →
      answers (0#7 ++ 0b01#2 ++ 1#1 ++ (x ^^^ onehot 10 j).extractLsb' 0 6)) ∧
    (parity cw = true → ¬zero → (¬∃ j, matching j ∧ ∀ k, matching k → k = j) → answers 0x0100#16)

/-! ### Frames and dependence -/

/-- R24: no request writes a register of the block, on success or error; of the interface, exactly one response
is added. A step that changes a register is one that takes a reset event, the next input of a constructed block.
That before construction the reset event may stand further back, and the requests around it stay pending, is the
model's reading, DEDUCED in log entry 3. -/
def Obligations.OnlyConstructionWritesRegisters : Prop :=
  (∀ (i : Instr) (s t : State), exec i s = .next t →
    t.phase = s.phase ∧ t.cstatus = s.cstatus ∧ t.gRow = s.gRow ∧ t.hRow = s.hRow ∧
      t.inputs = s.inputs ∧ ∃ r, t.responses = s.responses ++ [r]) ∧
  (∀ (gp : GMat) (s t : State), stepWith gp s = .next t →
    (t.cstatus ≠ s.cstatus ∨ t.gRow ≠ s.gRow ∨ t.hRow ≠ s.hRow) →
      ∃ pre rest, s.inputs = pre ++ .reset :: rest ∧ t.inputs = pre ++ rest ∧
        (s.phase = .constructed → pre = []))

/-- R25, R35: the response to a request is a function of the request, `CSTATUS`, `G_ROW` and `H_ROW`: two states
that agree on those give it the same response, whatever was answered before and whatever is pending. -/
def Obligations.AnswerDependsOnRegistersAlone : Prop :=
  ∀ (i : Instr) (s t : State), s.cstatus = t.cstatus → s.gRow = t.gRow → s.hRow = t.hRow →
    ∃ r : ResponseWord,
      exec i s = .next { s with responses := s.responses ++ [r] } ∧
      exec i t = .next { t with responses := t.responses ++ [r] }

/-- R88: DECODE does not look at `G_ROW`, and ENCODE does not look at `H_ROW` (R71). -/
def Obligations.DecodeIgnoresGAndEncodeIgnoresH : Prop :=
  ∀ (s : State) (G : GMat) (H : HMat) (rsvd : BitVec 5) (data : DataWord) (cw : Codeword),
    (∃ r : ResponseWord,
      exec (.decode cw) s = .next { s with responses := s.responses ++ [r] } ∧
      exec (.decode cw) { s with gRow := G } =
        .next { s with gRow := G, responses := s.responses ++ [r] }) ∧
    (∃ r : ResponseWord,
      exec (.encode rsvd data) s = .next { s with responses := s.responses ++ [r] } ∧
      exec (.encode rsvd data) { s with hRow := H } =
        .next { s with hRow := H, responses := s.responses ++ [r] })

/-- R36: the same requests performed in another order. Each request gets `answer s`, the same in both, the block is
the same after both, and the responses come back in the order of the requests. -/
def Obligations.EveryOrderGivesEveryRequestTheSameResponse : Prop :=
  ∀ (gp : GMat) (s : State) (reqs reqs' : List RequestWord), s.phase = .constructed → reqs.Perm reqs' →
    ∃ t t' : State,
      runWith gp reqs.length { s with inputs := reqs.map .request } = .next t ∧
      runWith gp reqs'.length { s with inputs := reqs'.map .request } = .next t' ∧
      t.responses = s.responses ++ reqs.map (answer s) ∧
      t'.responses = s.responses ++ reqs'.map (answer s) ∧
      SameBlock s t ∧ SameBlock s t' ∧ t.inputs = [] ∧ t'.inputs = [] ∧ t.responses.Perm t'.responses

/-- R107: a block that holds what construction left takes any list of requests and resets, in any arrangement, answers
the requests in their order as if there were no reset, and ends with the registers it started with (of a FAILED
block's matrices, which hold any value, nothing is said). -/
def Obligations.ResetsAmongRequestsChangeNoResponse : Prop :=
  ∀ (gp : GMat) (s : State), s.phase = .constructed → HoldsConstruction gp s →
    ∃ t, runWith gp s.inputs.length s = .next t ∧
      t.responses = s.responses ++ (requestsOf s.inputs).map (answer s) ∧ t.inputs = [] ∧
      t.phase = .constructed ∧ t.cstatus = s.cstatus ∧
      (s.cstatus = .ready → t.gRow = s.gRow ∧ t.hRow = s.hRow)

/-! ### Errors -/

/-- R92: exactly which requests, and which list operands of a constructed block, raise InvalidLength; its response. -/
def Obligations.InvalidLengthExactlyForWrongLengths : Prop :=
  (∀ (s : State) (req : RequestWord),
    answerOf s (decodeRequest req) = .error .invalidLength ↔
      s.cstatus = .ready ∧ req.getLsbD 11 = false ∧ req.extractLsb' 6 5 ≠ 0#5) ∧
  (∀ (s : State) (bits : List Bit), s.phase = .constructed →
    (encodeCall s bits = some (.error .invalidLength) ↔ s.cstatus = .ready ∧ bits.length ≠ 6)) ∧
  (∀ (s : State) (bits : List Bit), s.phase = .constructed →
    (decodeCall s bits = some (.error .invalidLength) ↔ s.cstatus = .ready ∧ bits.length ≠ 11)) ∧
  (∀ (s : State) (cw : Codeword), answerOf s (.decode cw) ≠ .error .invalidLength) ∧
  responseWord (.error .invalidLength) = 0x2000#16

/-- R93: an error answers with its code and nothing else, and has no effect on the block. -/
def Obligations.ErrorsReportTheirCodeAndChangeNothing : Prop :=
  ∀ (i : Instr) (s : State) (e : CodecError), answerOf s i = .error e →
    exec i s = .next { s with responses := s.responses ++ [errorCode e ++ 0#13] } ∧ errorCode e ≠ 0#3

/-- R96: the order of the checks, for requests and for list operands of a constructed block. -/
def Obligations.ConstructionFatalComesBeforeInvalidLength : Prop :=
  (∀ (s : State) (req : RequestWord),
    (s.cstatus = .failed → answer s req = 0x4000#16) ∧
    (s.cstatus = .ready → req.getLsbD 11 = false → req.extractLsb' 6 5 ≠ 0#5 → answer s req = 0x2000#16) ∧
    (s.cstatus = .ready → (req.getLsbD 11 = true ∨ req.extractLsb' 6 5 = 0#5) →
      errField (answer s req) = 0#3)) ∧
  (∀ (s : State) (bits : List Bit), s.phase = .constructed → s.cstatus = .failed →
    encodeCall s bits = some (.error .constructionFatal) ∧
    decodeCall s bits = some (.error .constructionFatal))

/-- R94, R60, R61: DimensionMismatch is the error of primitives on mismatched operands, of those only, and
neither a request nor construction can raise it. -/
def Obligations.DimensionMismatchOnlyFromMismatchedOperands : Prop :=
  (∀ u v : AnyVec, (anyDot u v = .error .dimensionMismatch ↔ u.len ≠ v.len) ∧
    (anyRowXor u v = .error .dimensionMismatch ↔ u.len ≠ v.len)) ∧
  (∀ (v : AnyVec) (M : AnyMat), anyVecMulMatrix v M = .error .dimensionMismatch ↔ v.len ≠ M.rows) ∧
  (∀ A B : AnyMat, anyMatMul A B = .error .dimensionMismatch ↔ A.cols ≠ B.rows) ∧
  (∀ (s : State) (i : Instr), answerOf s i ≠ .error .dimensionMismatch) ∧
  (∀ gp : GMat, eliminate gp ≠ .error .dimensionMismatch)

/-! ### Response layout -/

/-- R42 to R44, R47: the fields of each response word, read back from it, and the bits that are always zero. -/
def Obligations.ResponseFieldsStandWhereTheSpecPutsThem : Prop :=
  (∀ c : Codeword, errField (responseWord (.codeword c)) = 0#3 ∧
    (responseWord (.codeword c)).extractLsb' 11 2 = 0#2 ∧ codewordField (responseWord (.codeword c)) = c) ∧
  (∀ (d : Option DataWord) (st : Status), errField (responseWord (.decoded d st)) = 0#3 ∧
    (responseWord (.decoded d st)).extractLsb' 9 4 = 0#4 ∧
    statusField (responseWord (.decoded d st)) = statusCode st ∧
    presentField (responseWord (.decoded d st)) = d.isSome ∧
    respDataField (responseWord (.decoded d st)) = d.getD 0#6) ∧
  (∀ e : CodecError, errField (responseWord (.error e)) = errorCode e ∧
    bodyField (responseWord (.error e)) = 0#13)

/-- R45, R46: in every response of DECODE on a READY block, PRESENT is 1 exactly when STATUS is VALID or
CORRECTED, and STATUS is never `11`. -/
def Obligations.DataIsPresentExactlyWhenNotUncorrectable : Prop :=
  ∀ (s : State) (cw : Codeword), s.cstatus = .ready →
    let resp := answer s (encodeRequest (.decode cw))
    (presentField resp = true ↔ statusField resp = 0b00#2 ∨ statusField resp = 0b01#2) ∧
    (presentField resp = false ↔ statusField resp = 0b10#2) ∧
    statusField resp ≠ 0b11#2

/-! ### Primitives -/

/-- R54: `transpose`. -/
def Obligations.TransposeSwapsRowsAndColumns : Prop :=
  (∀ (a b : Nat) (M : Mat a b) (i : Fin a) (j : Fin b), bit (transpose M) j i = bit M i j) ∧
  (∀ (a b : Nat) (M : Mat a b), transpose (transpose M) = M) ∧
  transpose (#v[0b101#3] : Mat 1 3) = #v[1#1, 0#1, 1#1]

/-- R55: `dot` is the XOR of the products, is 0 at length 0, is 1 exactly when an odd number of positions hold 1 in
both, and raises DimensionMismatch when the lengths differ. -/
def Obligations.DotIsTheParityOfSharedOnes : Prop :=
  (∀ (L : Nat) (u v : BitVec L),
    dot u v = (List.range L).foldl (fun acc i => acc ^^ (u.getLsbD i && v.getLsbD i)) false) ∧
  (∀ u v : BitVec 0, dot u v = false) ∧
  (∀ (L : Nat) (u v : BitVec L), dot u v = true ↔ popcount (u &&& v) % 2 = 1) ∧
  (∀ u v : AnyVec, u.len ≠ v.len → anyDot u v = .error .dimensionMismatch) ∧
  (∀ (L : Nat) (u v : BitVec L), anyDot ⟨L, u⟩ ⟨L, v⟩ = .ok (dot u v)) ∧
  dot 0b1011#4 0b1101#4 = false

/-- R56: `vecMulMatrix`, by columns and by the rows that `v` selects, its corner cases and its error. -/
def Obligations.VecMulMatrixIsTheSumOfSelectedRows : Prop :=
  (∀ (a b : Nat) (v : BitVec a) (M : Mat a b) (j : Fin b),
    (vecMulMatrix v M).getLsbD j = dot v (column M j)) ∧
  (∀ (a b : Nat) (v : BitVec a) (M : Mat a b), vecMulMatrix v M = xorRows M v) ∧
  (∀ (a b : Nat) (M : Mat a b), vecMulMatrix 0#a M = 0#b) ∧
  (∀ (a b : Nat) (M : Mat a b) (i : Fin a), vecMulMatrix (onehot a i) M = row M i) ∧
  (∀ (v : AnyVec) (M : AnyMat), v.len ≠ M.rows → anyVecMulMatrix v M = .error .dimensionMismatch) ∧
  (∀ (a b : Nat) (v : BitVec a) (M : Mat a b),
    anyVecMulMatrix ⟨a, v⟩ ⟨a, b, M⟩ = .ok ⟨b, vecMulMatrix v M⟩) ∧
  vecMulMatrix 0b11#2 (#v[0b101#3, 0b110#3] : Mat 2 3) = 0b011#3

/-- R57: `rowXor` is the element-wise sum, with its corner cases and its error. -/
def Obligations.RowXorAddsElementwise : Prop :=
  (∀ (L : Nat) (u v : BitVec L) (i : Fin L),
    (rowXor u v).getLsbD i = (u.getLsbD i ^^ v.getLsbD i)) ∧
  (∀ (L : Nat) (u : BitVec L), rowXor u u = 0#L ∧ rowXor u 0#L = u) ∧
  (∀ u v : AnyVec, u.len ≠ v.len → anyRowXor u v = .error .dimensionMismatch) ∧
  (∀ (L : Nat) (u v : BitVec L), anyRowXor ⟨L, u⟩ ⟨L, v⟩ = .ok ⟨L, rowXor u v⟩) ∧
  rowXor 0b011#3 0b110#3 = 0b101#3

/-- R58: `matMul`, entry by entry, and its error. -/
def Obligations.MatMulEntriesAreDotsOfRowsAndColumns : Prop :=
  (∀ (a b c : Nat) (A : Mat a b) (B : Mat b c) (i : Fin a) (j : Fin c),
    bit (matMul A B) i j = dot (row A i) (column B j)) ∧
  (∀ A B : AnyMat, A.cols ≠ B.rows → anyMatMul A B = .error .dimensionMismatch) ∧
  (∀ (a b c : Nat) (A : Mat a b) (B : Mat b c),
    anyMatMul ⟨a, b, A⟩ ⟨b, c, B⟩ = .ok ⟨a, c, matMul A B⟩) ∧
  matMul (#v[0b11#2] : Mat 1 2) (#v[1#1, 1#1] : Mat 2 1) = #v[0#1]

/-! ### Construction and reset -/

/-- R63: the loop invariant. After the columns 0 to `n - 1`, those columns are columns of the identity. -/
def Obligations.EliminationLeavesUnitColumnsBehind : Prop :=
  ∀ (gp M : GMat) (n : Nat), n ≤ 6 → eliminateColumns (sixIndices.take n) gp = .ok M →
    ∀ i c : Fin 6, c.val < n → bit M i c = decide (i = c)

/-- R64: a successful elimination gives `A⁻¹ · G_PRIME`, which is systematic; and any row transformation of
`G_PRIME` that reaches the identity block, with any pivot rule, gives the same matrix. -/
def Obligations.EliminationResultIsUnique : Prop :=
  (∀ gp G : GMat, eliminate gp = .ok G →
    leadingBlock G = identity 6 ∧
    ∃ B : Mat 6 6, matMul B (leadingBlock gp) = identity 6 ∧ matMul (leadingBlock gp) B = identity 6 ∧
      G = matMul B gp) ∧
  (∀ (gp : GMat) (E : Mat 6 6), leadingBlock (matMul E gp) = identity 6 → eliminate gp = .ok (matMul E gp))

/-- R65: elimination fails exactly when the leading block is singular, and always with ConstructionFatal; it is the
case where some column has no pivot when its turn comes. -/
def Obligations.EliminationFailsExactlyWhenSingular : Prop :=
  ∀ gp : GMat,
    (eliminate gp = .error .constructionFatal ↔ ¬Invertible (leadingBlock gp)) ∧
    (∀ e, eliminate gp = .error e → e = .constructionFatal) ∧
    (eliminate gp = .error .constructionFatal ↔
      ∃ (n : Fin 6) (M : GMat),
        eliminateColumns (sixIndices.take n) gp = .ok M ∧
        ∀ i : Fin 6, n ≤ i → bit M i n = false)

/-- R66: column `j` of H is `P[j]` for `j < 6` and a unit vector from there on; `H · Gᵗ = 0` follows. -/
def Obligations.DerivedHHasParityRowsAndUnitsAsColumns : Prop :=
  ∀ G : GMat,
    (∀ (i : Fin 4) (j : Fin 6), bit (deriveH G) i j = bit G j (6 + i)) ∧
    (∀ i t : Fin 4, bit (deriveH G) i (6 + t) = decide (i = t)) ∧
    (∀ j : Fin 6, column (deriveH G) j = row (parityBlock G) j) ∧
    (∀ j : Fin 4, column (deriveH G) (6 + j) = onehot 4 j) ∧
    (Systematic G → matMul (deriveH G) (transpose G) = ofRows fun _ => 0#6)

/-- R67: construction is READY exactly under INV. WF_SECDED is not checked: some READY block fails it, and meets
the multi-match branch. -/
def Obligations.ConstructionChecksInvertibilityOnly : Prop :=
  (∀ gp : GMat, constructedCStatus gp = .ready ↔ Inv gp) ∧
  (∃ (gp : GMat) (cw : Codeword), constructedCStatus gp = .ready ∧ ¬WfSecded (constructedH gp) ∧
    2 ≤ popcount (matchMask (constructedH gp) (syndrome (constructedH gp) (coreOf cw))) ∧
    overallOk cw = false ∧ syndrome (constructedH gp) (coreOf cw) ≠ 0#4 ∧
    decodeWord (constructedH gp) cw = (none, .uncorrectable))

/-- R68: (a) with an identity leading block every pivot is found at `p = c`, no row has a 1 in another row's pivot
column, the swap and the row XORs of a pass change nothing, and `G = G_PRIME`; (b) a zero column or two equal rows in the leading block fail;
(c) the last four columns never select a pivot, and undergo the row operations the leading block calls for. -/
def Obligations.EliminationCornerCases : Prop :=
  (∀ gp : GMat, leadingBlock gp = identity 6 →
    (∀ c : Fin 6, findPivot gp c = some c ∧ (∀ i : Fin 6, i ≠ c → bit gp i c = false) ∧
      swapRows gp c c = gp ∧ clearColumn gp c = gp) ∧
    eliminate gp = .ok gp) ∧
  (∀ (gp : GMat) (j : Fin 6), column (leadingBlock gp) j = 0#6 → eliminate gp = .error .constructionFatal) ∧
  (∀ (gp : GMat) (i k : Fin 6), i ≠ k → row (leadingBlock gp) i = row (leadingBlock gp) k →
    eliminate gp = .error .constructionFatal) ∧
  (∀ (M N : GMat) (c : Fin 6), leadingBlock M = leadingBlock N → findPivot M c = findPivot N c) ∧
  (∀ gp gp' G : GMat, leadingBlock gp = leadingBlock gp' → eliminate gp = .ok G →
    ∃ E : Mat 6 6, G = matMul E gp ∧ eliminate gp' = .ok (matMul E gp'))

/-- R28, R105: what a reset event leaves, from any state: READY with `G = A⁻¹ · G_PRIME` and `H = [Pᵗ | I_4]` when the
leading block `A` has the inverse `B`, FAILED when it has none; the pending inputs and the responses given are
as they were. -/
def Obligations.ResetRunsConstruction : Prop :=
  ∀ (gp : GMat) (s : State) (rest : List Event), s.inputs = .reset :: rest →
    ∃ t, stepWith gp s = .next t ∧ t.phase = .constructed ∧ t.inputs = rest ∧ t.responses = s.responses ∧
      (∀ B : Mat 6 6, matMul B (leadingBlock gp) = identity 6 → matMul (leadingBlock gp) B = identity 6 →
        t.cstatus = .ready ∧ t.cstatusPort = 1#1 ∧ t.gRow = matMul B gp ∧ t.hRow = deriveH (matMul B gp)) ∧
      (¬Invertible (leadingBlock gp) → t.cstatus = .failed ∧ t.cstatusPort = 0#1)

/-- R28, R109: the boot order. The first reset of a built block leaves exactly the state after reset. That the interface
lists of that state are empty, and that a FAILED block's matrices depend on `G_PRIME` alone, is the model's choice (log
entries 2, 4 and 5). -/
def Obligations.FirstResetGivesTheResetState : Prop :=
  (∀ gp : GMat, stepWith gp (State.powerOn.issue [.reset]) = .next (State.resetWith gp)) ∧
  step (State.powerOn.issue [.reset]) = .next State.reset

/-- R29: what a reset leaves in `CSTATUS`, and in the matrices when READY, depends on `G_PRIME` alone, not on any earlier
state, so a second reset reproduces it; nor on the pivots chosen: the matrices are those of any row transformation
of `G_PRIME` that reaches the identity block. -/
def Obligations.ResetForgetsEarlierState : Prop :=
  (∀ (gp : GMat) (s s' t t' : State) (rest rest' : List Event),
    s.inputs = .reset :: rest → s'.inputs = .reset :: rest' →
    stepWith gp s = .next t → stepWith gp s' = .next t' →
      t.cstatus = t'.cstatus ∧ (t.cstatus = .ready → t.gRow = t'.gRow ∧ t.hRow = t'.hRow)) ∧
  (∀ (gp : GMat) (s t : State) (rest : List Event) (E : Mat 6 6),
    s.inputs = .reset :: rest → stepWith gp s = .next t → leadingBlock (matMul E gp) = identity 6 →
      t.cstatus = .ready ∧ t.gRow = matMul E gp ∧ t.hRow = deriveH (matMul E gp))

/-- R91: ConstructionFatal. Construction on a singular leading block shows `cstatus = 0`; every request is then
answered with the error and changes nothing; only construction from a `G_PRIME` with an invertible leading block
gives READY. -/
def Obligations.ConstructionFatalIsStickyUntilAnInvertibleReset : Prop :=
  (∀ (gp : GMat) (s : State), ¬Invertible (leadingBlock gp) →
    (s.construct gp).cstatus = .failed ∧ (s.construct gp).cstatusPort = 0#1) ∧
  (∀ (i : Instr) (s : State), s.cstatus = .failed →
    exec i s = .next { s with responses := s.responses ++ [0x4000#16] }) ∧
  (∀ (gp : GMat) (s t : State), s.cstatus = .failed → stepWith gp s = .next t → t.cstatus = .ready →
    (∃ pre rest, s.inputs = pre ++ .reset :: rest ∧ (s.phase = .constructed → pre = [])) ∧
      Invertible (leadingBlock gp))

/-! ### Invariants -/

/-- R21, R22: every step keeps the shapes of the matrices of a READY block, from any state that has them. -/
def Obligations.StepKeepsStructure : Prop :=
  ∀ (gp : GMat) (s t : State), Structural s → stepWith gp s = .next t → Structural t

/-- R21, R22, R28: the state after reset has them, whatever `G_PRIME` is. -/
def Obligations.ResetStateHasStructure : Prop :=
  (∀ gp : GMat, Structural (State.resetWith gp)) ∧ Structural State.reset

/-- R24, R28: the registers hold what construction left, at reset and after every step from any state where
they do. -/
def Obligations.RegistersKeepWhatConstructionLeft : Prop :=
  (∀ gp : GMat, HoldsConstruction gp (State.resetWith gp)) ∧
  (∀ (gp : GMat) (s t : State), HoldsConstruction gp s → stepWith gp s = .next t → HoldsConstruction gp t)

/-- R23: `H · Gᵗ = 0` on a READY block, row by row. -/
def Obligations.ReadyMatricesAreOrthogonal : Prop :=
  ∀ s : State, Structural s → s.phase = .constructed → s.cstatus = .ready →
    (∀ (i : Fin 4) (j : Fin 6), parity (row s.hRow i &&& row s.gRow j) = false) ∧
    (∀ (i : Fin 6), (row s.gRow i).extractLsb' 0 6 = onehot 6 i) ∧
    (∀ (i : Fin 4), (row s.hRow i).extractLsb' 6 4 = onehot 4 i)

/-! ### The encoder -/

/-- R72: the systematic core: the sum of the selected rows of `G`; its identity part; its parity part. -/
def Obligations.SystematicCoreCarriesDataAndParity : Prop :=
  (∀ (G : GMat) (word : DataWord), systematicCore G word = xorRows G word) ∧
  (∀ (G : GMat) (word : DataWord), Systematic G →
    (∀ j : Fin 6, (systematicCore G word).getLsbD j = word.getLsbD j) ∧
    (∀ i : Fin 4, (systematicCore G word).getLsbD (6 + i) =
      (List.finRange 6).foldl (fun acc (j : Fin 6) => acc ^^ (word.getLsbD j && bit (parityBlock G) j i)) false))

/-- R73: bit 10 is the parity of the core, the whole codeword has even parity, and the layout is data, parity,
overall parity. -/
def Obligations.CodewordHasEvenParity : Prop :=
  ∀ (G : GMat) (word : DataWord),
    (encodeWord G word).extractLsb' 0 10 = systematicCore G word ∧
    (encodeWord G word).getLsbD 10 = parity (systematicCore G word) ∧
    parity (encodeWord G word) = false ∧
    (Systematic G → (encodeWord G word).extractLsb' 0 6 = word ∧
      (encodeWord G word).extractLsb' 6 4 = vecMulMatrix word (parityBlock G))

/-- R74: encoding is linear, the overall parity bit included. -/
def Obligations.EncodingIsLinear : Prop :=
  ∀ (G : GMat) (a b : DataWord), encodeWord G a ^^^ encodeWord G b = encodeWord G (a ^^^ b)

/-- R75: the all-zero data word encodes to the all-zero codeword, for every matrix. -/
def Obligations.ZeroEncodesToZero : Prop := ∀ G : GMat, encodeWord G 0#6 = 0#11

/-- R76: every codeword of a built codec lies in the kernel of H, has even parity, and decodes to its word, VALID. -/
def Obligations.CodewordsLieInTheKernelOfH : Prop :=
  ∀ (gp G : GMat) (word : DataWord), eliminate gp = .ok G →
    vecMulMatrix ((encodeWord G word).extractLsb' 0 10) (transpose (deriveH G)) = 0#4 ∧
    syndrome (deriveH G) (coreOf (encodeWord G word)) = 0#4 ∧
    overallOk (encodeWord G word) = true ∧
    decodeWord (deriveH G) (encodeWord G word) = (some word, .valid)

/-! ### The decoder -/

/-- R79: the overall check is the parity of all 11 bits, and fails exactly when an odd number of bits differ from
the codeword sent. -/
def Obligations.OverallCheckCountsFlippedBits : Prop :=
  (∀ w : Codeword, overallOk w = true ↔ parity w = false) ∧
  (∀ (G : GMat) (word : DataWord) (e : Codeword),
    overallOk (encodeWord G word ^^^ e) = false ↔ popcount e % 2 = 1)

/-- R80, C2: the syndrome is `H · xᵗ`, which is `vecMulMatrix(x, Hᵗ)`; the overall parity bit does not enter it; and
the literal `vecMulMatrix(x, H)` is a DimensionMismatch. -/
def Obligations.SyndromeIsHTimesTheCore : Prop :=
  (∀ (H : HMat) (x : CoreWord) (i : Fin 4), (syndrome H x).getLsbD i = parity (row H i &&& x)) ∧
  (∀ (H : HMat) (x : CoreWord), syndrome H x = vecMulMatrix x (transpose H)) ∧
  (∀ (H : HMat) (w : Codeword), syndrome H (coreOf (w ^^^ onehot 11 10)) = syndrome H (coreOf w)) ∧
  (∀ (H : HMat) (x : CoreWord), anyVecMulMatrix ⟨10, x⟩ ⟨4, 10, H⟩ = .error .dimensionMismatch)

/-- R81: the syndrome of a codeword with errors is the XOR of the columns at the erroneous core positions, and is zero
exactly on cores of codewords. -/
def Obligations.SyndromeDependsOnTheErrorsOnly : Prop :=
  ∀ G : GMat, Systematic G →
    (∀ (word : DataWord) (e : Codeword),
      syndrome (deriveH G) (coreOf (encodeWord G word ^^^ e)) = syndrome (deriveH G) (coreOf e) ∧
      syndrome (deriveH G) (coreOf e) = xorColumns (deriveH G) (coreOf e) ∧
      (overallOk (encodeWord G word ^^^ e) = true ↔ popcount e % 2 = 0)) ∧
    (∀ x : CoreWord, syndrome (deriveH G) x = 0#4 ↔ ∃ word, systematicCore G word = x)

/-- R84: bit `j` of the match mask says that column `j` of H equals the syndrome. -/
def Obligations.MatchMaskMarksEqualColumns : Prop :=
  ∀ (H : HMat) (s : Syndrome) (j : Fin 10),
    ((matchMask H s).getLsbD j = true ↔ ∀ i : Fin 4, bit H i j = s.getLsbD i) ∧
    ((matchMask H s).getLsbD j = true ↔ column H j = s)

/-- R85: the population count of the mask tells none, one and several matches apart, and a single match makes the
mask one-hot. -/
def Obligations.UniqueMatchIsAOneHotMask : Prop :=
  ∀ (H : HMat) (s : Syndrome),
    (popcount (matchMask H s) = 0 ↔ ∀ j : Fin 10, column H j ≠ s) ∧
    (popcount (matchMask H s) = 1 ↔ ∃ j : Fin 10, column H j = s ∧ ∀ k : Fin 10, column H k = s → k = j) ∧
    (2 ≤ popcount (matchMask H s) ↔ ∃ j k : Fin 10, j ≠ k ∧ column H j = s ∧ column H k = s) ∧
    (∀ j : Fin 10, popcount (matchMask H s) = 1 → column H j = s → matchMask H s = onehot 10 j)

/-- R86: on a unique match at `j` the data bit `j` is flipped when `j < 6`, and no data bit when `j ≥ 6`. -/
def Obligations.CorrectionFlipsTheLocatedBit : Prop :=
  ∀ (H : HMat) (x : CoreWord) (s : Syndrome) (j : Fin 10),
    popcount (matchMask H s) = 1 → column H j = s →
      locate H x s = (some (dataOf (x ^^^ onehot 10 j)), .corrected) ∧
      (j.val < 6 → locate H x s = (some (dataOf x ^^^ onehot 6 j), .corrected)) ∧
      (6 ≤ j.val → locate H x s = (some (dataOf x), .corrected))

/-- R87, C3: none or several matches give `(none, UNCORRECTABLE)`; at least 5 nonzero syndromes match no column; under every
well-formed derived H some received word meets the zero-match branch; several matches need a malformed H. -/
def Obligations.LocatorFailureIsUncorrectable : Prop :=
  (∀ (H : HMat) (x : CoreWord) (s : Syndrome), popcount (matchMask H s) ≠ 1 →
    locate H x s = (none, .uncorrectable)) ∧
  (∀ H : HMat, ∃ L : List Syndrome, L.Nodup ∧ L.length = 5 ∧
    ∀ s ∈ L, s ≠ 0#4 ∧ ∀ j : Fin 10, column H j ≠ s) ∧
  (∀ G : GMat, WfSecded (deriveH G) → ∃ w : Codeword, overallOk w = false ∧
    syndrome (deriveH G) (coreOf w) ≠ 0#4 ∧
    matchMask (deriveH G) (syndrome (deriveH G) (coreOf w)) = 0#10 ∧
    decodeWord (deriveH G) w = (none, .uncorrectable)) ∧
  (∀ (H : HMat) (s : Syndrome), 2 ≤ popcount (matchMask H s) → ¬WfSecded H)

/-- R17: WF_SECDED said of the columns of H and of the rows of P is the same; and scenario 1 of the source is a
constraint on P. -/
def Obligations.WellFormedCodeSaidOfColumnsAndOfRows : Prop :=
  ∀ G : GMat, Systematic G →
    (WfSecded (deriveH G) ↔ WfParity (parityBlock G)) ∧
    (encodeWord G 0x36#6 = 0x3F6#11 ↔ ScenarioOne (parityBlock G))

/-- R89: round trip for every built codec; single-bit correction together with double-bit detection exactly when
WF_SECDED holds. -/
def Obligations.SecdedGuaranteesHoldExactlyWhenWellFormed : Prop :=
  ∀ gp G : GMat, eliminate gp = .ok G →
    RoundTrip G (deriveH G) ∧
    ((SingleBitCorrection G (deriveH G) ∧ DoubleBitDetection G (deriveH G)) ↔ WfSecded (deriveH G))

/-- R90: beyond two errors. Four or more, even: VALID, with wrong data, when the syndrome is zero, UNCORRECTABLE when it
is not. Three or more, odd: CORRECTED with wrong data when the syndrome is zero or (the code well-formed) a column,
UNCORRECTABLE when it is neither. -/
def Obligations.MoreThanTwoErrorsAreReportedByTheirSyndrome : Prop :=
  ∀ (G : GMat) (word : DataWord) (e : Codeword), Systematic G →
    let s := xorColumns (deriveH G) (coreOf e)
    let result := decodeWord (deriveH G) (encodeWord G word ^^^ e)
    (4 ≤ popcount e → popcount e % 2 = 0 → s = 0#4 → ∃ d, d ≠ word ∧ result = (some d, .valid)) ∧
    (4 ≤ popcount e → popcount e % 2 = 0 → s ≠ 0#4 → result = (none, .uncorrectable)) ∧
    (3 ≤ popcount e → popcount e % 2 = 1 → s = 0#4 → ∃ d, d ≠ word ∧ result = (some d, .corrected)) ∧
    (∀ j : Fin 10, 3 ≤ popcount e → popcount e % 2 = 1 → WfSecded (deriveH G) → s = column (deriveH G) j →
      ∃ d, d ≠ word ∧ result = (some d, .corrected)) ∧
    (3 ≤ popcount e → popcount e % 2 = 1 → s ≠ 0#4 → (∀ j : Fin 10, s ≠ column (deriveH G) j) →
      result = (none, .uncorrectable))

/-- R89, R113, on the machine: a READY block with a well-formed code answers ENCODE with a codeword from which the host,
in the state ENCODE leaves, gets the data back as VALID, after one flipped bit as CORRECTED, and after two,
UNCORRECTABLE. Each of these steps adds its one response and changes nothing else. -/
def Obligations.MachineCorrectsOneErrorAndDetectsTwo : Prop :=
  ∀ (s : State) (word : DataWord), Structural s → s.phase = .constructed → s.cstatus = .ready →
    WfSecded s.hRow →
      ∃ c : Codeword,
        let t : State := { s with responses := s.responses ++ [0#5 ++ c] }
        exec (.encode 0#5 word) s = .next t ∧
        exec (.decode c) t = .next { t with responses := t.responses ++ [0#7 ++ 0b00#2 ++ 1#1 ++ word] } ∧
        (∀ i : Fin 11, exec (.decode (c ^^^ onehot 11 i)) t =
          .next { t with responses := t.responses ++ [0#7 ++ 0b01#2 ++ 1#1 ++ word] }) ∧
        (∀ i j : Fin 11, i ≠ j → exec (.decode (c ^^^ onehot 11 i ^^^ onehot 11 j)) t =
          .next { t with responses := t.responses ++ [0x0100#16] })

/-! ### Operand forms -/

/-- R53: on a constructed block a list operand of the right length gets the response of the request that carries the
same bits, and one of another length, on a READY block, InvalidLength. -/
def Obligations.ListOperandsAgreeWithRequests : Prop :=
  ∀ (s : State), s.phase = .constructed →
    (∀ word : DataWord, encodeCall s (toBits word) = some (answerOf s (.encode 0#5 word))) ∧
    (∀ cw : Codeword, decodeCall s (toBits cw) = some (answerOf s (.decode cw))) ∧
    (∀ bits : List Bit, s.cstatus = .ready → bits.length ≠ 6 →
      encodeCall s bits = some (.error .invalidLength)) ∧
    (∀ bits : List Bit, s.cstatus = .ready → bits.length ≠ 11 →
      decodeCall s bits = some (.error .invalidLength))

/-- R52: tuple and hex forms of a word assemble to the same request, the one that decodes to the operation; an ENCODE hex
operand above `0x3F` assembles to the request that is that number, `{0, zext_11(operand)}`, whose reserved bits are
set. -/
def Obligations.AssemblerFormsDenoteTheSameRequest : Prop :=
  (∀ word : DataWord,
    assemble (.encode (.tuple (toBits word))) = some (encodeRequest (.encode 0#5 word)) ∧
    assemble (.encode (.hex word.toNat)) = some (encodeRequest (.encode 0#5 word))) ∧
  (∀ cw : Codeword,
    assemble (.decode (.tuple (toBits cw))) = some (encodeRequest (.decode cw)) ∧
    assemble (.decode (.hex cw.toNat)) = some (encodeRequest (.decode cw))) ∧
  (∀ n : Nat, 0x3F < n → n < 0x800 →
    assemble (.encode (.hex n)) = some (BitVec.ofNat 12 n) ∧
    ∃ (rsvd : BitVec 5) (data : DataWord), rsvd ≠ 0#5 ∧
      assemble (.encode (.hex n)) = some (encodeRequest (.encode rsvd data)) ∧
      ∀ s : State, s.cstatus = .ready → answerOf s (.encode rsvd data) = .error .invalidLength) ∧
  assemble (.encode (.tuple [false, true, true, false, true, true])) = some 0x036#12 ∧
  assemble (.encode (.hex 0x36)) = some 0x036#12 ∧
  assemble (.decode (.tuple [false, true, false, false, true, true, true, true, true, true, false])) =
    some 0xBF2#12 ∧
  assemble (.decode (.hex 0x3F2)) = some 0xBF2#12

/-- The model's choice (DESIGN CHOICE, log entry 16), where R53 is silent and R108 speaks of requests: a list-level call
gives a response exactly when construction has completed. -/
def Obligations.ListCallsRespondExactlyWhenConstructed : Prop :=
  ∀ (s : State) (bits : List Bit),
    ((encodeCall s bits).isSome = true ↔ s.phase = .constructed) ∧
    ((decodeCall s bits).isSome = true ↔ s.phase = .constructed)

/-- DEDUCED from "until construction completes" (R108), with the reset taken ahead of the requests (log entry 3): when a
reset event is pending, wherever it stands, the run over the inputs completes construction and then answers every
stuck request, in order, from the registers construction wrote. -/
def Obligations.StuckRequestsGoOnAfterConstruction : Prop :=
  ∀ (gp : GMat) (s : State), s.phase = .beforeConstruction → .reset ∈ s.inputs →
    ∃ t, runWith gp s.inputs.length s = .next t ∧ t.phase = .constructed ∧ t.inputs = [] ∧
      t.responses = s.responses ++ (requestsOf s.inputs).map (answer (State.resetWith gp))

/-- R18: the reference instance. Its elimination needs a row swap and gives `G_ref`, whose `P` is `P_ref` and whose
derived `H` is `H_ref`, with the columns and the unused words of the tables; it satisfies INV, WF_SECDED and the
constraint of scenario 1; and a block built with it is READY with those matrices after reset. -/
def Obligations.ReferenceInstanceIsAsTabulated : Prop :=
  findPivot gPrimeRef 0 = some 1 ∧ bit gPrimeRef 0 0 = false ∧
  eliminate gPrimeRef = .ok gRef ∧ Systematic gRef ∧ parityBlock gRef = pRef ∧ deriveH gRef = hRef ∧
  (List.range 10).map (column hRef) = hRefColumns ∧
  (∀ s : Syndrome, s ∈ hRefUnused ↔ s ≠ 0#4 ∧ ∀ j : Fin 10, column hRef j ≠ s) ∧
  Inv gPrimeRef ∧ WfSecded hRef ∧ WfParity pRef ∧ ScenarioOne pRef ∧
  (State.resetWith gPrimeRef).cstatus = .ready ∧ (State.resetWith gPrimeRef).gRow = gRef ∧
  (State.resetWith gPrimeRef).hRow = hRef
end

