-- ==== Sys2Proof/Laws/Gf2.lean ====
section
/-! SUPPORT. The laws of the GF(2) primitives: each definition's bits, and linearity. -/

namespace Sys2Proof.Machine

/-! ### Words from bits -/

@[simp] theorem getLsbD_bitsOf (n : Nat) (f : Nat → Bit) (i : Nat) :
    (bitsOf n f).getLsbD i = (decide (i < n) && f i) := by
  induction n with
  | zero => simp [bitsOf]
  | succ n ih =>
    rw [bitsOf, BitVec.getLsbD_cons, ih]
    by_cases h : i = n
    · simp [h]
    · have : i < n + 1 ↔ i < n := by omega
      simp [h, this]

@[simp] theorem getElem_bitsOf {n : Nat} (f : Nat → Bit) {i : Nat} (h : i < n) : (bitsOf n f)[i] = f i := by
  rw [← BitVec.getLsbD_eq_getElem, getLsbD_bitsOf]
  simp [h]

theorem bitsOf_congr {n : Nat} {f g : Nat → Bit} (h : ∀ i, i < n → f i = g i) :
    bitsOf n f = bitsOf n g := by
  apply BitVec.eq_of_getLsbD_eq
  intro i hi
  simp [hi, h]

theorem bitsOf_xor (n : Nat) (f g : Nat → Bit) :
    bitsOf n (fun i => f i ^^ g i) = bitsOf n f ^^^ bitsOf n g := by
  apply BitVec.eq_of_getLsbD_eq
  intro i hi
  simp [hi]

@[simp] theorem bitsOf_getLsbD {n : Nat} (v : BitVec n) : bitsOf n v.getLsbD = v := by
  apply BitVec.eq_of_getLsbD_eq
  intro i hi
  simp [hi]

@[simp] theorem getLsbD_onehot (L j i : Nat) :
    (onehot L j).getLsbD i = (decide (i < L) && decide (j = i)) := by
  unfold onehot
  rw [BitVec.getLsbD_twoPow]
  by_cases h : j = i <;> simp [h]

@[simp] theorem getElem_onehot {L : Nat} (j : Nat) {i : Nat} (h : i < L) :
    (onehot L j)[i] = decide (j = i) := by
  rw [← BitVec.getLsbD_eq_getElem, getLsbD_onehot]
  simp [h]

/-! ### Parity -/

theorem parityUpTo_xor {L : Nat} (u v : BitVec L) (n : Nat) :
    parityUpTo (u ^^^ v) n = (parityUpTo u n ^^ parityUpTo v n) := by
  induction n with
  | zero => rfl
  | succ n ih => simp only [parityUpTo, BitVec.getLsbD_xor, ih, Bool.xor_assoc, Bool.xor_left_comm]

/-- `parity` is linear (R9, R59). -/
theorem parity_xor {L : Nat} (u v : BitVec L) : parity (u ^^^ v) = (parity u ^^ parity v) :=
  parityUpTo_xor u v L

theorem parityUpTo_congr {L M : Nat} {u : BitVec L} {v : BitVec M} {n : Nat}
    (h : ∀ i, i < n → u.getLsbD i = v.getLsbD i) : parityUpTo u n = parityUpTo v n := by
  induction n with
  | zero => rfl
  | succ n ih =>
    simp only [parityUpTo]
    rw [h n (by omega), ih fun i hi => h i (by omega)]

@[simp] theorem parity_zero (L : Nat) : parity (0#L) = false := by
  have : ∀ n, parityUpTo (0#L) n = false := by
    intro n
    induction n with
    | zero => rfl
    | succ n ih => simp [parityUpTo, ih]
  exact this L

theorem parity_cons {L : Nat} (b : Bit) (v : BitVec L) :
    parity (BitVec.cons b v) = (b ^^ parity v) := by
  show ((BitVec.cons b v).getLsbD L ^^ parityUpTo (BitVec.cons b v) L) = _
  rw [parityUpTo_congr (v := v) fun i hi => by rw [BitVec.getLsbD_cons]; simp [show i ≠ L by omega]]
  rw [BitVec.getLsbD_cons]
  simp [parity]

/-- The parity is the oddness of the number of 1 bits. -/
theorem parity_eq_popcount_odd {L : Nat} (v : BitVec L) : parity v = decide (popcount v % 2 = 1) := by
  have : ∀ n, parityUpTo v n = decide (popcountUpTo v n % 2 = 1) := by
    intro n
    induction n with
    | zero => rfl
    | succ n ih =>
      rw [parityUpTo, popcountUpTo, ih]
      cases v.getLsbD n
      · simp
      · rcases Nat.mod_two_eq_zero_or_one (popcountUpTo v n) with h | h <;> simp [h, Nat.add_mod]
  exact this L

/-! ### `dot` -/

theorem dot_comm {L : Nat} (u v : BitVec L) : dot u v = dot v u := by
  unfold dot; rw [BitVec.and_comm]

theorem dot_xor_left {L : Nat} (u v w : BitVec L) : dot (u ^^^ v) w = (dot u w ^^ dot v w) := by
  unfold dot
  rw [← parity_xor]
  congr 1
  apply BitVec.eq_of_getLsbD_eq
  intro i _
  simp [Bool.and_xor_distrib_right]

theorem dot_xor_right {L : Nat} (u v w : BitVec L) : dot u (v ^^^ w) = (dot u v ^^ dot u w) := by
  rw [dot_comm, dot_xor_left, dot_comm v, dot_comm w]

@[simp] theorem dot_zero_left {L : Nat} (v : BitVec L) : dot (0#L) v = false := by
  simp [dot]

@[simp] theorem dot_zero_right {L : Nat} (v : BitVec L) : dot v (0#L) = false := by
  simp [dot]

/-- Against a unit vector, `dot` picks one element. -/
theorem dot_onehot_left {L : Nat} (j : Nat) (v : BitVec L) :
    dot (onehot L j) v = (decide (j < L) && v.getLsbD j) := by
  have key : ∀ n, n ≤ L →
      parityUpTo (onehot L j &&& v) n = (decide (j < n) && v.getLsbD j) := by
    intro n
    induction n with
    | zero => simp [parityUpTo]
    | succ n ih =>
      intro hn
      rw [parityUpTo, ih (by omega)]
      by_cases h : j = n
      · subst h; simp [show j < L by omega]
      · have : j < n + 1 ↔ j < n := by omega
        simp [h, this]
  exact key L (Nat.le_refl L)

theorem dot_onehot_right {L : Nat} (j : Nat) (v : BitVec L) :
    dot v (onehot L j) = (decide (j < L) && v.getLsbD j) := by
  rw [dot_comm, dot_onehot_left]

/-! ### Matrices -/

@[simp] theorem row_ofRows {a b : Nat} (f : Fin a → BitVec b) (i : Fin a) : row (ofRows f) i = f i := by
  simp [row, ofRows]

/-- Matrices with equal rows are equal. -/
theorem mat_ext {a b : Nat} {M N : Mat a b} (h : ∀ i, row M i = row N i) : M = N := by
  apply Vector.ext
  intro i hi
  exact h ⟨i, hi⟩

theorem bit_ofRows {a b : Nat} (f : Fin a → BitVec b) (i : Fin a) (j : Nat) :
    bit (ofRows f) i j = (f i).getLsbD j := by simp [bit]

/-- Matrices with equal bits are equal. -/
theorem mat_ext_bit {a b : Nat} {M N : Mat a b} (h : ∀ i, ∀ j, j < b → bit M i j = bit N i j) : M = N :=
  mat_ext fun i => BitVec.eq_of_getLsbD_eq fun j hj => h i j hj

@[simp] theorem getLsbD_column {a b : Nat} (M : Mat a b) (j : Nat) (i : Fin a) :
    (column M j).getLsbD i = bit M i j := by
  rw [column, getLsbD_bitsOf]
  simp

@[simp] theorem getElem_column {a b : Nat} (M : Mat a b) (j : Nat) {i : Nat} (h : i < a) :
    (column M j)[i] = bit M ⟨i, h⟩ j := by
  simp [column, h]

/-- A column's bit at any index. -/
theorem getLsbD_column_nat {a b : Nat} (M : Mat a b) (j i : Nat) :
    (column M j).getLsbD i = if h : i < a then bit M ⟨i, h⟩ j else false := by
  by_cases h : i < a <;> simp [column, h]

theorem bit_transpose {a b : Nat} (M : Mat a b) (j : Fin b) (i : Fin a) :
    bit (transpose M) j i = bit M i j := by simp [transpose, bit_ofRows]

@[simp] theorem row_transpose {a b : Nat} (M : Mat a b) (j : Fin b) : row (transpose M) j = column M j := by
  simp [transpose]

@[simp] theorem column_transpose {a b : Nat} (M : Mat a b) (i : Fin a) : column (transpose M) i = row M i := by
  apply BitVec.eq_of_getLsbD_eq
  intro j hj
  simp [hj, bit]

@[simp] theorem row_identity (m : Nat) (i : Fin m) : row (identity m) i = onehot m i := by simp [identity]

@[simp] theorem row_beside {a b c : Nat} (A : Mat a b) (B : Mat a c) (i : Fin a) :
    row (beside A B) i = row B i ++ row A i := by simp [beside]

/-! ### `vecMulMatrix` and `matMul` -/

@[simp] theorem getLsbD_vecMulMatrix {a b : Nat} (v : BitVec a) (M : Mat a b) (j : Nat) :
    (vecMulMatrix v M).getLsbD j = (decide (j < b) && dot v (column M j)) := by simp [vecMulMatrix]

@[simp] theorem getElem_vecMulMatrix {a b : Nat} (v : BitVec a) (M : Mat a b) {j : Nat} (h : j < b) :
    (vecMulMatrix v M)[j] = dot v (column M j) := by simp [vecMulMatrix]

/-- `vecMulMatrix` distributes over XOR (R74). -/
theorem vecMulMatrix_xor {a b : Nat} (u v : BitVec a) (M : Mat a b) :
    vecMulMatrix (u ^^^ v) M = vecMulMatrix u M ^^^ vecMulMatrix v M := by
  simp only [vecMulMatrix, dot_xor_left, bitsOf_xor]

@[simp] theorem vecMulMatrix_zero {a b : Nat} (M : Mat a b) : vecMulMatrix (0#a) M = 0#b := by
  apply BitVec.eq_of_getLsbD_eq
  intro j hj
  simp

/-- `v = onehot(i)` gives row `i` (R56). -/
theorem vecMulMatrix_onehot {a b : Nat} (i : Fin a) (M : Mat a b) : vecMulMatrix (onehot a i) M = row M i := by
  apply BitVec.eq_of_getLsbD_eq
  intro j hj
  simp [hj, dot_onehot_left, bit]

@[simp] theorem row_matMul {a b c : Nat} (A : Mat a b) (B : Mat b c) (i : Fin a) :
    row (matMul A B) i = vecMulMatrix (row A i) B := by simp [matMul, vecMulMatrix]

end Sys2Proof.Machine
end

