-- ==== Sys2Proof/Laws/State.lean ====
section
/-! SUPPORT. One lemma per field per update of State, so that no proof unfolds a record update. -/

namespace Sys2Proof.Machine

section respond
variable (s : State) (r : Response)
@[simp] theorem respond_phase : (s.respond r).phase = s.phase := rfl
@[simp] theorem respond_cstatus : (s.respond r).cstatus = s.cstatus := rfl
@[simp] theorem respond_gRow : (s.respond r).gRow = s.gRow := rfl
@[simp] theorem respond_hRow : (s.respond r).hRow = s.hRow := rfl
@[simp] theorem respond_inputs : (s.respond r).inputs = s.inputs := rfl
@[simp] theorem respond_responses :
    (s.respond r).responses = s.responses ++ [responseWord r] := rfl
end respond

section construct
variable (gp : GMat) (s : State)
@[simp] theorem construct_phase : (s.construct gp).phase = .constructed := rfl
@[simp] theorem construct_cstatus : (s.construct gp).cstatus = constructedCStatus gp := rfl
@[simp] theorem construct_gRow : (s.construct gp).gRow = constructedG gp := rfl
@[simp] theorem construct_hRow : (s.construct gp).hRow = constructedH gp := rfl
@[simp] theorem construct_inputs : (s.construct gp).inputs = s.inputs := rfl
@[simp] theorem construct_responses : (s.construct gp).responses = s.responses := rfl
end construct

section withInputs
variable (s : State) (evs : List Event)
@[simp] theorem withInputs_phase : (s.withInputs evs).phase = s.phase := rfl
@[simp] theorem withInputs_cstatus : (s.withInputs evs).cstatus = s.cstatus := rfl
@[simp] theorem withInputs_gRow : (s.withInputs evs).gRow = s.gRow := rfl
@[simp] theorem withInputs_hRow : (s.withInputs evs).hRow = s.hRow := rfl
@[simp] theorem withInputs_inputs : (s.withInputs evs).inputs = evs := rfl
@[simp] theorem withInputs_responses : (s.withInputs evs).responses = s.responses := rfl
end withInputs

section reset
variable (gp : GMat)
@[simp] theorem resetWith_phase : (State.resetWith gp).phase = .constructed := rfl
@[simp] theorem resetWith_cstatus : (State.resetWith gp).cstatus = constructedCStatus gp := rfl
@[simp] theorem resetWith_gRow : (State.resetWith gp).gRow = constructedG gp := rfl
@[simp] theorem resetWith_hRow : (State.resetWith gp).hRow = constructedH gp := rfl
@[simp] theorem resetWith_inputs : (State.resetWith gp).inputs = [] := rfl
@[simp] theorem resetWith_responses : (State.resetWith gp).responses = [] := rfl
end reset

/-- What construction leaves when elimination succeeds (R69). -/
theorem constructed_of_ok {gp G : GMat} (h : eliminate gp = .ok G) :
    constructedCStatus gp = .ready ∧ constructedG gp = G ∧ constructedH gp = deriveH G := by
  simp [constructedCStatus, constructedG, constructedH, h]

/-- What construction leaves when elimination fails (R69). -/
theorem constructed_of_error {gp : GMat} {e : CodecError} (h : eliminate gp = .error e) :
    constructedCStatus gp = .failed ∧ constructedG gp = Config.unspecifiedG gp ∧
      constructedH gp = Config.unspecifiedH gp := by
  simp [constructedCStatus, constructedG, constructedH, h]

/-- A READY construction is one whose elimination succeeded. -/
theorem exists_ok_of_ready {gp : GMat} (h : constructedCStatus gp = .ready) :
    ∃ G, eliminate gp = .ok G := by
  unfold constructedCStatus at h
  split at h
  · exact ⟨_, ‹_›⟩
  · cases h

end Sys2Proof.Machine
end

