-- ==== Sys2Proof/Laws/Codec.lean ====
section
/-! SUPPORT. The laws of the encoder's and the decoder's stages: their bits, their linearity, and the decoder's
cases one by one. -/

namespace Sys2Proof.Machine

/-- Words with equal bits are equal, the index bounded by its type. -/
theorem word_ext {L : Nat} {u v : BitVec L} (h : ∀ i : Fin L, u.getLsbD i = v.getLsbD i) : u = v :=
  BitVec.eq_of_getLsbD_eq fun i hi => h ⟨i, hi⟩

/-! ### The splits of a received word (R78) -/

theorem getLsbD_coreOf (w : Codeword) (i : Nat) :
    (coreOf w).getLsbD i = (decide (i < 10) && w.getLsbD i) := by
  simp [coreOf]

theorem getLsbD_dataOf (x : CoreWord) (i : Nat) :
    (dataOf x).getLsbD i = (decide (i < 6) && x.getLsbD i) := by
  simp [dataOf]

@[simp] theorem coreOf_xor (v w : Codeword) : coreOf (v ^^^ w) = coreOf v ^^^ coreOf w := by
  apply word_ext
  intro i
  rw [BitVec.getLsbD_xor]
  simp only [getLsbD_coreOf, i.isLt, decide_true, Bool.true_and, BitVec.getLsbD_xor]

@[simp] theorem dataOf_xor (x y : CoreWord) : dataOf (x ^^^ y) = dataOf x ^^^ dataOf y := by
  apply word_ext
  intro i
  rw [BitVec.getLsbD_xor]
  simp only [getLsbD_dataOf, i.isLt, decide_true, Bool.true_and, BitVec.getLsbD_xor]

@[simp] theorem coreOf_injectParity (core : CoreWord) : coreOf (injectParity core) = core := by
  apply word_ext
  intro i
  rw [getLsbD_coreOf, injectParity, BitVec.getLsbD_cons]
  simp [show i.val ≠ 10 by omega]

/-- The core of a codeword is the systematic core it was made from. -/
@[simp] theorem coreOf_encodeWord (G : GMat) (word : DataWord) :
    coreOf (encodeWord G word) = systematicCore G word := coreOf_injectParity _

/-! ### The overall check (R79) -/

theorem overallOk_xor (v w : Codeword) : overallOk (v ^^^ w) = (overallOk v == overallOk w) := by
  unfold overallOk
  rw [parity_xor]
  cases parity v <;> cases parity w <;> rfl

@[simp] theorem overallOk_injectParity (core : CoreWord) : overallOk (injectParity core) = true := by
  unfold overallOk injectParity
  rw [parity_cons]
  simp

/-! ### The syndrome (R80) -/

theorem getLsbD_syndrome (H : HMat) (x : CoreWord) (i : Fin 4) :
    (syndrome H x).getLsbD i = dot (row H i) x := by
  rw [syndrome, getLsbD_bitsOf]
  simp

theorem syndrome_xor (H : HMat) (x y : CoreWord) :
    syndrome H (x ^^^ y) = syndrome H x ^^^ syndrome H y := by
  apply word_ext
  intro i
  rw [BitVec.getLsbD_xor]
  simp only [getLsbD_syndrome, dot_xor_right]

@[simp] theorem syndrome_zero (H : HMat) : syndrome H 0#10 = 0#4 := by
  apply word_ext
  intro i
  rw [getLsbD_syndrome]
  simp

/-- A single flipped core bit has its column as its syndrome. -/
theorem syndrome_onehot (H : HMat) (j : Fin 10) : syndrome H (onehot 10 j) = column H j := by
  apply word_ext
  intro i
  rw [getLsbD_syndrome, dot_onehot_right, getLsbD_column]
  simp [bit]

/-- A column equals a syndrome when it does so in every row. -/
theorem column_eq_iff (H : HMat) (s : Syndrome) (j : Nat) :
    column H j = s ↔ ∀ i : Fin 4, bit H i j = s.getLsbD i := by
  constructor
  · rintro rfl i
    rw [getLsbD_column]
  · intro h
    apply word_ext
    intro i
    rw [getLsbD_column, h]

/-! ### The columns of a derived H (R66) -/

/-- The identity part of a systematic `G`, bit by bit. -/
theorem bit_of_systematic {G : GMat} (h : leadingBlock G = identity 6) (i j : Fin 6) :
    bit G i j = decide (i = j) := by
  have hrow := congrArg (fun M => bit M i j) h
  simp only [leadingBlock, identity, bit_ofRows, getLsbD_onehot] at hrow
  have hb : bit G i j = ((row G i).extractLsb' 0 6).getLsbD j := by simp [bit]
  rw [hb, hrow]
  simp [Fin.ext_iff]

/-- The parity block, bit by bit. -/
theorem bit_parityBlock (G : GMat) (j : Fin 6) (i : Fin 4) : bit (parityBlock G) j i = bit G j (6 + i) := by
  rw [parityBlock, bit_ofRows]
  simp [bit]

/-- `H` in its `Pᵗ` part. -/
theorem bit_deriveH_low (G : GMat) (i : Fin 4) (j : Fin 6) : bit (deriveH G) i j = bit (parityBlock G) j i := by
  have : (row (deriveH G) i).getLsbD j = (column (parityBlock G) i).getLsbD j := by
    unfold deriveH
    rw [row_beside, BitVec.getLsbD_append]
    simp
  rw [bit, this, getLsbD_column]

/-- `H` in its identity part. -/
theorem bit_deriveH_high (G : GMat) (i t : Fin 4) : bit (deriveH G) i (6 + t) = decide (i = t) := by
  have : (row (deriveH G) i).getLsbD (6 + t) = (onehot 4 i).getLsbD t := by
    unfold deriveH
    rw [row_beside, BitVec.getLsbD_append]
    simp
  rw [bit, this, getLsbD_onehot]
  simp [Fin.ext_iff]

/-! ### The decoder's cases (R82) -/

section cases
variable {H : HMat} {w : Codeword}

theorem decodeWord_valid (hp : overallOk w = true) (hs : syndrome H (coreOf w) = 0#4) :
    decodeWord H w = (some (dataOf (coreOf w)), .valid) := by
  simp [decodeWord, classify, hp, hs]

theorem decodeWord_overallFlipped (hp : overallOk w = false) (hs : syndrome H (coreOf w) = 0#4) :
    decodeWord H w = (some (dataOf (coreOf w)), .corrected) := by
  simp [decodeWord, classify, hp, hs]

theorem decodeWord_even (hp : overallOk w = true) (hs : syndrome H (coreOf w) ≠ 0#4) :
    decodeWord H w = (none, .uncorrectable) := by
  simp [decodeWord, classify, hp, hs]

theorem decodeWord_located (hp : overallOk w = false) (hs : syndrome H (coreOf w) ≠ 0#4) :
    decodeWord H w = locate H (coreOf w) (syndrome H (coreOf w)) := by
  simp [decodeWord, classify, hp, hs]

end cases

end Sys2Proof.Machine
end

