-- ==== Sys2Proof/Laws/Deriver.lean ====
section
/-! SUPPORT. The algebra of elimination: matrix products, and each row operation of R63 as a product with an
invertible matrix. -/

namespace Sys2Proof.Machine

/-! ### Products -/

/-- Moving a product across `dot`: `(v · M) · u = v · (M · u)`. -/
theorem dot_vecMulMatrix {a b : Nat} (v : BitVec a) (M : Mat a b) (u : BitVec b) :
    dot (vecMulMatrix v M) u =
      dot v (bitsOf a fun i => if h : i < a then dot (row M ⟨i, h⟩) u else false) := by
  have key : ∀ n, n ≤ a → ∀ v : BitVec a, (∀ i, n ≤ i → v.getLsbD i = false) →
      dot (vecMulMatrix v M) u =
        dot v (bitsOf a fun i => if h : i < a then dot (row M ⟨i, h⟩) u else false) := by
    intro n
    induction n with
    | zero =>
      intro _ v hv
      have : v = 0#a := word_ext fun i => by rw [hv i (Nat.zero_le _)]; simp
      simp [this]
    | succ n ih =>
      intro hn v hv
      by_cases hb : v.getLsbD n = true
      · have h0 := ih (by omega) (v ^^^ onehot a n) fun i hi => by
          rw [BitVec.getLsbD_xor, getLsbD_onehot]
          by_cases h : n = i
          · subst h; simp [hb, show n < a by omega]
          · rw [hv i (by omega)]; simp [h]
        have hv' : v = (v ^^^ onehot a n) ^^^ onehot a n := by rw [BitVec.xor_assoc]; simp
        rw [hv', vecMulMatrix_xor, dot_xor_left, dot_xor_left, h0]
        congr 1
        rw [vecMulMatrix_onehot ⟨n, by omega⟩, dot_onehot_left]
        simp [show n < a by omega]
      · refine ih (by omega) v fun i hi => ?_
        by_cases h : n = i
        · subst h; simpa using hb
        · exact hv i (by omega)
  exact key a (Nat.le_refl a) v fun i hi => BitVec.getLsbD_of_ge v i hi

theorem vecMulMatrix_matMul {a b c : Nat} (v : BitVec a) (A : Mat a b) (B : Mat b c) :
    vecMulMatrix (vecMulMatrix v A) B = vecMulMatrix v (matMul A B) := by
  apply word_ext
  intro j
  rw [getLsbD_vecMulMatrix, getLsbD_vecMulMatrix, dot_vecMulMatrix]
  congr 2
  apply word_ext
  intro i
  rw [getLsbD_bitsOf, getLsbD_column]
  simp [bit]

theorem matMul_assoc {a b c d : Nat} (A : Mat a b) (B : Mat b c) (C : Mat c d) :
    matMul (matMul A B) C = matMul A (matMul B C) :=
  mat_ext fun i => by simp only [row_matMul, vecMulMatrix_matMul]

@[simp] theorem identity_matMul {a b : Nat} (M : Mat a b) : matMul (identity a) M = M :=
  mat_ext fun i => by simp [vecMulMatrix_onehot]

@[simp] theorem column_identity (m : Nat) (j : Fin m) : column (identity m) j = onehot m j :=
  word_ext fun k => by
    rw [getLsbD_column, bit, row_identity, getLsbD_onehot, getLsbD_onehot]
    simp [eq_comm]

@[simp] theorem matMul_identity {a b : Nat} (M : Mat a b) : matMul M (identity b) = M := by
  apply mat_ext_bit
  intro i j hj
  rw [bit, row_matMul, getLsbD_vecMulMatrix, column_identity b ⟨j, hj⟩, dot_onehot_right]
  simp [hj, bit]

/-- Row operations act on the leading block alone. -/
theorem leadingBlock_matMul (E : Mat 6 6) (M : GMat) :
    leadingBlock (matMul E M) = matMul E (leadingBlock M) := by
  apply mat_ext_bit
  intro i j hj
  have hcol : column (leadingBlock M) j = column M j := word_ext fun k => by
    simp only [getLsbD_column, leadingBlock, bit_ofRows]
    simp [hj, bit]
  rw [leadingBlock, bit_ofRows, bit, row_matMul, row_matMul, getLsbD_vecMulMatrix, hcol]
  simp [hj]
  omega

/-! ### The row operations of R63 as products -/

/-- Exchanging rows `c` and `p`, as a matrix. -/
def swapMatrix (c p : Fin 6) : Mat 6 6 :=
  ofRows fun i => onehot 6 (if i = c then p else if i = p then c else i : Fin 6)

/-- Clearing column `c` of `M`, as a matrix. -/
def clearMatrix (M : GMat) (c : Fin 6) : Mat 6 6 :=
  ofRows fun i => if i ≠ c ∧ bit M i c = true then onehot 6 i ^^^ onehot 6 c else onehot 6 i

theorem swapRows_eq_matMul (M : GMat) (c p : Fin 6) : swapRows M c p = matMul (swapMatrix c p) M :=
  mat_ext fun i => by
    rw [row_matMul, swapMatrix, row_ofRows, vecMulMatrix_onehot, swapRows, row_ofRows]

theorem clearColumn_eq_matMul (M : GMat) (c : Fin 6) : clearColumn M c = matMul (clearMatrix M c) M :=
  mat_ext fun i => by
    rw [row_matMul, clearMatrix, row_ofRows, clearColumn, row_ofRows]
    split <;> simp [vecMulMatrix_xor, vecMulMatrix_onehot, rowXor]

theorem swapMatrix_involutive (c p : Fin 6) :
    matMul (swapMatrix c p) (swapMatrix c p) = identity 6 := by
  revert c p; decide +kernel

theorem clearMatrix_involutive (M : GMat) (c : Fin 6) :
    matMul (clearMatrix M c) (clearMatrix M c) = identity 6 := by
  apply mat_ext
  intro i
  have hrow : ∀ k, row (clearMatrix M c) k =
      if k ≠ c ∧ bit M k c = true then onehot 6 k ^^^ onehot 6 c else onehot 6 k := by
    intro k; rw [clearMatrix, row_ofRows]
  rw [row_matMul, row_identity, hrow]
  split
  · rename_i h
    rw [vecMulMatrix_xor, vecMulMatrix_onehot, vecMulMatrix_onehot, hrow, hrow, if_pos h]
    simp
  · rename_i h
    rw [vecMulMatrix_onehot, hrow, if_neg h]

/-- One pass of R63 multiplies on the left by a matrix `E` with a left inverse `F`. -/
theorem eliminateColumn_eq_matMul {M N : GMat} {c : Fin 6} (h : eliminateColumn M c = .ok N) :
    ∃ E F : Mat 6 6, matMul F E = identity 6 ∧ N = matMul E M := by
  unfold eliminateColumn at h
  split at h
  · cases h
  · rename_i p _
    cases h
    refine ⟨matMul (clearMatrix (swapRows M c p) c) (swapMatrix c p),
      matMul (swapMatrix c p) (clearMatrix (swapRows M c p) c), ?_, ?_⟩
    · rw [matMul_assoc, ← matMul_assoc (clearMatrix _ _), clearMatrix_involutive, identity_matMul,
        swapMatrix_involutive]
    · rw [clearColumn_eq_matMul, matMul_assoc, ← swapRows_eq_matMul]

/-- So do any passes after one another. -/
theorem eliminateColumns_eq_matMul {cs : List (Fin 6)} :
    ∀ {M N : GMat}, eliminateColumns cs M = .ok N →
      ∃ E F : Mat 6 6, matMul F E = identity 6 ∧ N = matMul E M := by
  induction cs with
  | nil =>
    intro M N h
    cases h
    exact ⟨identity 6, identity 6, by simp, by simp⟩
  | cons c cs ih =>
    intro M N h
    unfold eliminateColumns at h
    split at h
    · cases h
    · rename_i M' h'
      obtain ⟨E, F, hFE, hM'⟩ := eliminateColumn_eq_matMul h'
      obtain ⟨E', F', hFE', hN⟩ := ih h
      refine ⟨matMul E' E, matMul F F', ?_, by rw [matMul_assoc, ← hM', ← hN]⟩
      rw [matMul_assoc, ← matMul_assoc F', hFE', identity_matMul, hFE]

/-! ### Pivots and passes -/

/-- A pivot found stands at or below row `c` and has a 1 in column `c`. -/
theorem findPivot_some {M : GMat} {c p : Fin 6} (h : findPivot M c = some p) :
    c ≤ p ∧ bit M p c = true := by
  have := List.find?_some h
  simpa using this

/-- No pivot: every row from `c` on has a 0 in column `c`. -/
theorem findPivot_none {M : GMat} {c : Fin 6} (h : findPivot M c = none) (i : Fin 6) (hi : c ≤ i) :
    bit M i c = false := by
  have := List.find?_eq_none.1 h i ((by decide : ∀ k : Fin 6, k ∈ sixIndices) i)
  simpa [hi] using this

/-- Taking columns one after another. -/
theorem eliminateColumns_append (cs ds : List (Fin 6)) (M : GMat) :
    eliminateColumns (cs ++ ds) M =
      match eliminateColumns cs M with
      | .error e => .error e
      | .ok N => eliminateColumns ds N := by
  induction cs generalizing M with
  | nil => rfl
  | cons c cs ih =>
    simp only [List.cons_append, eliminateColumns]
    cases eliminateColumn M c with
    | error e => rfl
    | ok N => exact ih N

end Sys2Proof.Machine
end

