-- ==== Sys2Proof/Laws/Ops.lean ====
section
/-! SUPPORT. The words of the responses, and what a request does in each construction status. -/

namespace Sys2Proof.Machine

/-! ### Response words (R43, R44, R47) -/

theorem responseWord_codeword (c : Codeword) : responseWord (.codeword c) = 0#5 ++ c := by
  revert c; decide +kernel

theorem responseWord_valid (d : DataWord) :
    responseWord (.decoded (some d) .valid) = 0#7 ++ 0b00#2 ++ 1#1 ++ d := by
  revert d; decide +kernel

theorem responseWord_corrected (d : DataWord) :
    responseWord (.decoded (some d) .corrected) = 0#7 ++ 0b01#2 ++ 1#1 ++ d := by
  revert d; decide +kernel

theorem responseWord_uncorrectable : responseWord (.decoded none .uncorrectable) = 0x0100#16 := by decide

theorem responseWord_invalidLength : responseWord (.error .invalidLength) = 0x2000#16 := by decide

theorem responseWord_constructionFatal : responseWord (.error .constructionFatal) = 0x4000#16 := by decide

/-! ### The response in each status (R96) -/

section response
variable {s : State}

theorem encodeResponse_failed (h : s.cstatus = .failed) (rsvd : BitVec 5) (data : DataWord) :
    encodeResponse s rsvd data = .error .constructionFatal := by simp [encodeResponse, h]

theorem encodeResponse_ready (h : s.cstatus = .ready) (data : DataWord) :
    encodeResponse s 0#5 data = .codeword (encodeWord s.gRow data) := by simp [encodeResponse, h]

theorem encodeResponse_reserved (h : s.cstatus = .ready) {rsvd : BitVec 5} (hr : rsvd ≠ 0#5)
    (data : DataWord) : encodeResponse s rsvd data = .error .invalidLength := by
  simp [encodeResponse, h, hr]

theorem decodeResponse_failed (h : s.cstatus = .failed) (cw : Codeword) :
    decodeResponse s cw = .error .constructionFatal := by simp [decodeResponse, h]

theorem decodeResponse_ready (h : s.cstatus = .ready) (cw : Codeword) :
    decodeResponse s cw = .decoded (decodeWord s.hRow cw).1 (decodeWord s.hRow cw).2 := by
  simp [decodeResponse, h]

end response

/-! ### What the meanings do: answer, and nothing else (R24) -/

theorem execEncode_eq (rsvd : BitVec 5) (data : DataWord) (s : State) :
    execEncode rsvd data s = .next (s.respond (encodeResponse s rsvd data)) := rfl

theorem execDecode_eq (cw : Codeword) (s : State) :
    execDecode cw s = .next (s.respond (decodeResponse s cw)) := rfl

/-- The response a request gets depends on no list of the interface. -/
theorem encodeResponse_congr {s t : State} (hc : s.cstatus = t.cstatus) (hg : s.gRow = t.gRow)
    (rsvd : BitVec 5) (data : DataWord) : encodeResponse s rsvd data = encodeResponse t rsvd data := by
  simp [encodeResponse, hc, hg]

theorem decodeResponse_congr {s t : State} (hc : s.cstatus = t.cstatus) (hh : s.hRow = t.hRow)
    (cw : Codeword) : decodeResponse s cw = decodeResponse t cw := by
  simp [decodeResponse, hc, hh]

/-! ### Words and lists of bits (R10, R53) -/

@[simp] theorem length_toBits {L : Nat} (v : BitVec L) : (toBits v).length = L := by simp [toBits]

/-- Reading a word's list of bits gives the word back. -/
@[simp] theorem bitsOf_toBits {L : Nat} (v : BitVec L) :
    (bitsOf L fun i => (toBits v).getD i false) = v := by
  apply BitVec.eq_of_getLsbD_eq
  intro i hi
  rw [getLsbD_bitsOf]
  simp [toBits, hi]

@[simp] theorem listOperand_toBits {L : Nat} (v : BitVec L) : listOperand L (toBits v) = .ok v := by
  simp only [listOperand, length_toBits, if_true, bitsOf_toBits]

section listCall
variable {L : Nat} {s : State} {bits : List Bit} {op : BitVec L → Response}

/-- Before construction, no response (log entry 16). -/
theorem listCall_before (hp : s.phase = .beforeConstruction) : listCall L s bits op = none := by
  simp [listCall, hp]

/-- A failed block checks no length (R96). -/
theorem listCall_failed (hp : s.phase = .constructed) (h : s.cstatus = .failed) :
    listCall L s bits op = some (.error .constructionFatal) := by simp [listCall, hp, h]

/-- A READY block checks the length, then performs the operation (R53). -/
theorem listCall_ready (hp : s.phase = .constructed) (h : s.cstatus = .ready) :
    listCall L s bits op =
      if bits.length = L then some (op (bitsOf L fun i => bits.getD i false))
      else some (.error .invalidLength) := by
  by_cases hl : bits.length = L <;> simp [listCall, listOperand, hp, h, hl]

end listCall

end Sys2Proof.Machine
end

