-- ==== Sys2Proof/Laws/PerInstr.lean ====
section
/-! SUPPORT. Statements about every operation as syntax, one lemma per constructor of Instr (LAWS.json). -/

namespace Sys2Proof.Laws

/-- The layout of a request word (R39): `OP` says which operation it is, the fields of its format hold its operands. -/
def RequestLayout.Statement : Instr → Prop
  | .encode rsvd data =>
    opField (encodeRequest (.encode rsvd data)) = false ∧
      rsvdField (encodeRequest (.encode rsvd data)) = rsvd ∧
      dataField (encodeRequest (.encode rsvd data)) = data
  | .decode cw =>
    opField (encodeRequest (.decode cw)) = true ∧ cwField (encodeRequest (.decode cw)) = cw

theorem RequestLayout.encode (rsvd : BitVec 5) (data : DataWord) :
    RequestLayout.Statement (.encode rsvd data) := by
  have h : ∀ (r : BitVec 5) (d : DataWord),
      opField (encodeRequest (.encode r d)) = false ∧ rsvdField (encodeRequest (.encode r d)) = r ∧
        dataField (encodeRequest (.encode r d)) = d := by decide +kernel
  exact h rsvd data

theorem RequestLayout.decode (cw : Codeword) : RequestLayout.Statement (.decode cw) := by
  have h : ∀ c : Codeword,
      opField (encodeRequest (.decode c)) = true ∧ cwField (encodeRequest (.decode c)) = c := by
    decide +kernel
  exact h cw

end Sys2Proof.Laws
end

