-- ==== Sys2Proof/Laws/Step.lean ====
section
/-! SUPPORT. What `exec` and a step can do, said once, and the host's run of the machine. -/

namespace Sys2Proof.Machine

/-- Every operation answers, and does nothing else (R24). -/
theorem exec_eq_respond (i : Instr) (s : State) : exec i s = .next (s.respond (answerOf s i)) := by
  cases i <;> rfl

/-- What is pending does not enter an answer. -/
@[simp] theorem answerOf_withInputs (s : State) (evs : List Event) (i : Instr) :
    answerOf (s.withInputs evs) i = answerOf s i := by
  cases i <;> rfl

/-- A failed block answers ConstructionFatal to everything (R91). -/
theorem answerOf_failed {s : State} (h : s.cstatus = .failed) (i : Instr) :
    answerOf s i = .error .constructionFatal := by
  cases i
  · exact encodeResponse_failed h _ _
  · exact decodeResponse_failed h _

/-! ### The reset event among the inputs -/

/-- There is none to take exactly when none is pending. -/
theorem takeReset_eq_none {evs : List Event} : takeReset evs = none ↔ .reset ∉ evs := by
  induction evs with
  | nil => simp [takeReset]
  | cons e es ih => cases e <;> simp [takeReset, ih]

/-- The one taken is the first: what stays pending is what stood around it. -/
theorem takeReset_eq_some {evs rest : List Event} (h : takeReset evs = some rest) :
    ∃ pre post, evs = pre ++ .reset :: post ∧ rest = pre ++ post ∧ .reset ∉ pre := by
  induction evs generalizing rest with
  | nil => simp [takeReset] at h
  | cons e es ih =>
    cases e with
    | reset => exact ⟨[], es, rfl, by simpa [takeReset] using h.symm, by simp⟩
    | request req =>
      obtain ⟨r, hr, rfl⟩ := Option.map_eq_some_iff.mp h
      obtain ⟨pre, post, rfl, rfl, hpre⟩ := ih hr
      exact ⟨.request req :: pre, post, rfl, rfl, by simpa using hpre⟩

@[simp] theorem takeReset_reset (rest : List Event) : takeReset (.reset :: rest) = some rest := rfl

/-- Taking a reset loses no request and keeps their order. -/
theorem requestsOf_takeReset {evs rest : List Event} (h : takeReset evs = some rest) :
    requestsOf rest = requestsOf evs := by
  induction evs generalizing rest with
  | nil => simp [takeReset] at h
  | cons e es ih =>
    cases e with
    | reset => cases h; rfl
    | request req =>
      obtain ⟨r, hr, rfl⟩ := Option.map_eq_some_iff.mp h
      simp [requestsOf, ih hr]

theorem length_takeReset {evs rest : List Event} (h : takeReset evs = some rest) :
    rest.length + 1 = evs.length := by
  obtain ⟨pre, post, rfl, rfl, -⟩ := takeReset_eq_some h
  simp [Nat.add_assoc]

/-! ### One step -/

section step
variable {gp : GMat} {s t : State}

/-- With nothing sent, the block waits (R106). -/
theorem stepWith_wait (h : s.inputs = []) : stepWith gp s = .next s := by
  cases hp : s.phase <;> simp [stepWith, State.nextMove, takeReset, hp, h]

/-- Before construction, with no reset event pending, the block waits (R108). -/
theorem stepWith_stuck (hp : s.phase = .beforeConstruction) (h : .reset ∉ s.inputs) :
    stepWith gp s = .next s := by
  simp [stepWith, State.nextMove, hp, takeReset_eq_none.mpr h]

/-- Before construction, a pending reset event is taken from wherever it stands (R108). -/
theorem stepWith_takeReset {rest : List Event} (hp : s.phase = .beforeConstruction)
    (h : takeReset s.inputs = some rest) : stepWith gp s = .next ((s.withInputs rest).construct gp) := by
  simp [stepWith, State.nextMove, hp, h]

/-- A reset event that is next runs construction, in either phase (R105, R107). -/
theorem stepWith_reset {rest : List Event} (h : s.inputs = .reset :: rest) :
    stepWith gp s = .next ((s.withInputs rest).construct gp) := by
  cases hp : s.phase <;> simp [stepWith, State.nextMove, hp, h]

/-- A request that is next on a constructed block is decoded and performed (R36, R48). -/
theorem stepWith_request {req : RequestWord} {rest : List Event} (hp : s.phase = .constructed)
    (h : s.inputs = .request req :: rest) :
    stepWith gp s = .next ((s.withInputs rest).respond (answerOf s (decodeRequest req))) := by
  rw [← answerOf_withInputs s rest, ← exec_eq_respond]
  simp [stepWith, State.nextMove, h, hp]

/-- What a step can do: the block waits, constructs, or performs one request. -/
theorem stepWith_cases (gp : GMat) (s : State) :
    (stepWith gp s = .next s ∧ (s.inputs = [] ∨ s.phase = .beforeConstruction ∧ .reset ∉ s.inputs)) ∨
    (∃ pre post, s.inputs = pre ++ .reset :: post ∧ .reset ∉ pre ∧ (s.phase = .constructed → pre = []) ∧
      stepWith gp s = .next ((s.withInputs (pre ++ post)).construct gp)) ∨
    (∃ req rest, s.phase = .constructed ∧ s.inputs = .request req :: rest ∧
      stepWith gp s = .next ((s.withInputs rest).respond (answerOf s (decodeRequest req)))) := by
  cases hp : s.phase with
  | beforeConstruction =>
    cases ht : takeReset s.inputs with
    | none =>
      have hr := takeReset_eq_none.mp ht
      exact .inl ⟨stepWith_stuck hp hr, .inr ⟨rfl, hr⟩⟩
    | some rest =>
      obtain ⟨pre, post, hi, rfl, hpre⟩ := takeReset_eq_some ht
      exact .inr (.inl ⟨pre, post, hi, hpre, nofun, stepWith_takeReset hp ht⟩)
  | constructed =>
    cases hi : s.inputs with
    | nil => exact .inl ⟨stepWith_wait hi, .inl rfl⟩
    | cons e rest =>
      cases e with
      | reset => exact .inr (.inl ⟨[], rest, rfl, nofun, fun _ => rfl, stepWith_reset hi⟩)
      | request req => exact .inr (.inr ⟨req, rest, rfl, rfl, stepWith_request hp hi⟩)

/-- INVERSION. The same, of the state a step answers. -/
theorem stepWith_next_cases (h : stepWith gp s = .next t) :
    (t = s ∧ (s.inputs = [] ∨ s.phase = .beforeConstruction ∧ .reset ∉ s.inputs)) ∨
    (∃ pre post, s.inputs = pre ++ .reset :: post ∧ .reset ∉ pre ∧ (s.phase = .constructed → pre = []) ∧
      t = (s.withInputs (pre ++ post)).construct gp) ∨
    (∃ req rest, s.phase = .constructed ∧ s.inputs = .request req :: rest ∧
      t = (s.withInputs rest).respond (answerOf s (decodeRequest req))) := by
  simpa [h] using stepWith_cases gp s

end step

/-! ### Runs -/

/-- A run of `n + 1` steps, its first step known. -/
theorem runWith_succ {gp : GMat} {s t : State} (h : stepWith gp s = .next t) (n : Nat) :
    runWith gp (n + 1) s = runWith gp n t := by
  simp [runWith, h]

/-- The host's run of the core is `runWith` of the block's own `G_PRIME`. -/
theorem core_run_eq (n : Nat) (s : State) :
    Host.Core.run Sys2Proof.core n s = runWith Config.gPrime n s := by
  induction n generalizing s with
  | zero => rfl
  | succ n ih =>
    have hstep : Sys2Proof.core.step s = stepWith Config.gPrime s := rfl
    simp only [Host.Core.run, runWith]
    rw [hstep]
    cases stepWith Config.gPrime s with
    | next t => exact ih t
    | fault r => rfl
    | refused r => rfl

end Sys2Proof.Machine
end

