-- ==== Sys2Proof/Tests/Slice0.lean ====
section
/-! SUPPORT. Tests of the model against the spec: its worked examples and vectors (95_test_vectors.md), words
written out from the encodings of 30_encoding.md, the smoke test of WellFormed, and a witness for the hypotheses
of each statement. Expected values come from the spec, each with its vector's name. -/

namespace Sys2Proof.Tests

open Sys2Proof.Machine

/-! ### The matrices of the spec's vectors, beside those of R18 (`Machine/Reference.lean`) -/

/-- `G'_sing` (K3): rows 0 and 1 equal. -/
def gSing : GMat := #v[0x0C1, 0x0C1, 0x2C4, 0x308, 0x350, 0x3A0]
/-- K4: column 0 all zero. -/
def gNoPivot : GMat := #v[0x002, 0x004, 0x008, 0x010, 0x020, 0x3C0]
/-- `G'_dup` (K5): `P[1] = P[0]`. -/
def gDup : GMat := #v[0x0C1, 0x0C2, 0x2C4, 0x308, 0x350, 0x3A0]
/-- `G'_zero` (K6): `P[0] = 0`. -/
def gZero : GMat := #v[0x001, 0x1C2, 0x2C4, 0x308, 0x350, 0x3A0]
/-- `G'_unit` (K7): `P[0]` equals column 6. -/
def gUnit : GMat := #v[0x041, 0x1C2, 0x2C4, 0x308, 0x350, 0x3A0]

/-- A READY block under `G'_ref` with these requests pending. -/
def readyWith (reqs : List RequestWord) : State := (State.resetWith gPrimeRef).issue (reqs.map .request)
/-- A FAILED block under `G'_sing` with these requests pending. -/
def failedWith (reqs : List RequestWord) : State := (State.resetWith gSing).issue (reqs.map .request)
/-- A block that waits for construction, with these inputs pending. -/
def unbuiltWith (evs : List Event) : State := State.powerOn.issue evs

/-- The responses after one step, if it answers a next state. -/
def responsesAfter (gp : GMat) (s : State) : Option (List ResponseWord) :=
  match stepWith gp s with
  | .next t => some t.responses
  | .refused _ => none

/-! ### Decoding: words written out from R40 and R41 -/

/-- Format E: `0 | 00000 | 110110`, and the reserved field `0 | 00001 | 000000`, `0 | 11111 | 111111`. -/
theorem test_decode_format_E :
    decodeRequest 0b000000110110#12 = .encode 0b00000#5 0b110110#6 ∧
    decodeRequest 0b000001000000#12 = .encode 0b00001#5 0b000000#6 ∧
    decodeRequest 0b011111111111#12 = .encode 0b11111#5 0b111111#6 := by decide

/-- Format D: `1 | 01111110010`, `1 | 00000000000`, `1 | 10000000001`. -/
theorem test_decode_format_D :
    decodeRequest 0b101111110010#12 = .decode 0b01111110010#11 ∧
    decodeRequest 0b100000000000#12 = .decode 0b00000000000#11 ∧
    decodeRequest 0b110000000001#12 = .decode 0b10000000001#11 := by decide

/-- The encoder, on the same words. -/
theorem test_encode_formats :
    encodeRequest (.encode 0b00001#5 0b110110#6) = 0b000001110110#12 ∧
    encodeRequest (.decode 0b10000000001#11) = 0b110000000001#12 := by decide

/-- The table's two words, in whole bytes, and a number wider than a request. -/
theorem test_decodeTableWord :
    decodeTableWord 16 0x000 = some (.encode 0#5 0#6) ∧
    decodeTableWord 16 0x800 = some (.decode 0#11) ∧
    decodeTableWord 16 0x1800 = none ∧
    decodeNat 0x1000 = .error .widerThanTwelveBits := by decide

/-- The smoke test of WellFormed's one check: a reserved field that is not `00000` (R40). -/
theorem test_wellFormed_refuses_rsvd :
    (Instr.encode 0b00001#5 0x36#6).wellFormed = false ∧
    (Instr.encode 0b10000#5 0x00#6).wellFormed = false ∧
    (Instr.encode 0b00000#5 0x3F#6).wellFormed = true ∧
    (Instr.decode 0x7FF#11).wellFormed = true := by decide

/-! ### The GF(2) primitives (vectors of 2.1) -/

/-- transpose, dot, vecMulMatrix, rowXor and matMul on the examples of R54 to R58. -/
theorem test_primitives :
    transpose (#v[0b101#3] : Mat 1 3) = #v[1#1, 0#1, 1#1] ∧
    dot 0b1011#4 0b1101#4 = false ∧ dot 0b1011#4 0b1111#4 = true ∧
    vecMulMatrix 0b11#2 (#v[0b101#3, 0b110#3] : Mat 2 3) = 0b011#3 ∧
    vecMulMatrix 0b00#2 (#v[0b101#3, 0b110#3] : Mat 2 3) = 0b000#3 ∧
    rowXor 0b011#3 0b110#3 = 0b101#3 ∧ rowXor 0b011#3 0b011#3 = 0#3 ∧
    matMul (#v[0b11#2] : Mat 1 2) (#v[1#1, 1#1] : Mat 2 1) = #v[0#1] ∧
    matMul hRef (transpose gRef) = ofRows fun _ => 0#6 := by decide

/-- DimensionMismatch: lengths 3 and 4, and the literal reading of C2 (length 10 against `4 × 10`). -/
theorem test_dimensionMismatch :
    anyDot ⟨3, 0b111#3⟩ ⟨4, 0b1111#4⟩ = .error .dimensionMismatch ∧
    anyDot ⟨4, 0b1011#4⟩ ⟨4, 0b1101#4⟩ = .ok false ∧
    anyVecMulMatrix ⟨10, 0x3F6#10⟩ ⟨4, 10, hRef⟩ = .error .dimensionMismatch ∧
    anyVecMulMatrix ⟨2, 0b11#2⟩ ⟨2, 3, #v[0b101#3, 0b110#3]⟩ = .ok ⟨3, 0b011#3⟩ ∧
    anyRowXor ⟨3, 0#3⟩ ⟨2, 0#2⟩ = .error .dimensionMismatch ∧
    anyMatMul ⟨1, 2, #v[0b11#2]⟩ ⟨3, 1, #v[1#1, 1#1, 1#1]⟩ = .error .dimensionMismatch ∧
    anyMatMul ⟨1, 2, #v[0b11#2]⟩ ⟨2, 1, #v[1#1, 1#1]⟩ = .ok ⟨1, 1, #v[0#1]⟩ := by decide

/-! ### Construction (vectors K1 to K7, and the trace of R70) -/

/-- R70: the rows after the columns 0, 1, 2 and 4 (each row's bit string, column 0 first, read back). -/
theorem test_elimination_trace :
    eliminateColumns [0] gPrimeRef = .ok #v[0x103, 0x306, 0x2C4, 0x3F8, 0x350, 0x262] ∧
    eliminateColumns [0, 1] gPrimeRef = .ok #v[0x205, 0x306, 0x2C4, 0x3F8, 0x350, 0x164] ∧
    eliminateColumns [0, 1, 2] gPrimeRef = .ok #v[0x0C1, 0x1C2, 0x2C4, 0x3F8, 0x350, 0x3A0] ∧
    eliminateColumns [0, 1, 2, 3, 4] gPrimeRef = .ok #v[0x0C1, 0x1C2, 0x2C4, 0x0A8, 0x350, 0x3A0] := by
  decide

/-- K1 and K2: READY, with the matrices of R18. -/
theorem test_construct_ready :
    eliminate gPrimeRef = .ok gRef ∧ eliminate gRef = .ok gRef ∧ deriveH gRef = hRef ∧
    constructedCStatus gPrimeRef = .ready ∧ constructedH gPrimeRef = hRef := by decide

/-- K3 and K4: FAILED. -/
theorem test_construct_failed :
    eliminate gSing = .error .constructionFatal ∧ eliminate gNoPivot = .error .constructionFatal ∧
    constructedCStatus gSing = .failed := by decide

/-- K5 to K7: READY, `H` as listed, and WF_SECDED fails; it holds of `H_ref`. -/
theorem test_construct_malformed :
    constructedCStatus gDup = .ready ∧ constructedH gDup = #v[0x057, 0x0A7, 0x138, 0x23C] ∧
    constructedH gZero = #v[0x056, 0x0A6, 0x13A, 0x23C] ∧
    constructedH gUnit = #v[0x057, 0x0A6, 0x13A, 0x23C] ∧
    ¬WfSecded (deriveH gDup) ∧ ¬WfSecded (deriveH gZero) ∧ ¬WfSecded (deriveH gUnit) ∧
    WfSecded hRef := by decide

/-- The rows of a matrix as the spec prints them: digits, column 0 first. -/
def printedRows {a b : Nat} (M : Mat a b) : List (List Nat) := M.toList.map fun r => (toBits r).map Bool.toNat

/-- R18: the columns of `H_ref` as syndrome words; every nonzero word is a column or one of the unused. -/
theorem test_columns_of_hRef :
    (List.range 10).map (column hRef) = hRefColumns ∧ parityBlock gRef = pRef ∧
    (∀ s : Syndrome, s = 0#4 ∨ (s ∈ hRefColumns ↔ s ∉ hRefUnused)) := by decide

/-- R18: the rows of the tables as they are printed, column 0 first. -/
theorem test_rows_of_the_reference_instance :
    printedRows gPrimeRef =
      [[0,1,1,0,0,0,0,0,1,1], [1,1,0,0,0,0,0,0,1,0], [0,0,1,0,0,0,1,1,0,1],
       [0,0,0,1,1,1,1,1,1,1], [0,0,0,0,1,0,1,0,1,1], [1,0,0,0,0,1,1,0,1,1]] ∧
    printedRows gRef =
      [[1,0,0,0,0,0,1,1,0,0], [0,1,0,0,0,0,1,1,1,0], [0,0,1,0,0,0,1,1,0,1],
       [0,0,0,1,0,0,0,0,1,1], [0,0,0,0,1,0,1,0,1,1], [0,0,0,0,0,1,0,1,1,1]] ∧
    printedRows hRef =
      [[1,1,1,0,1,0,1,0,0,0], [1,1,1,0,0,1,0,1,0,0], [0,1,0,1,1,1,0,0,1,0], [0,0,1,1,1,1,0,0,0,1]] ∧
    printedRows pRef = [[1,1,0,0], [1,1,1,0], [1,1,0,1], [0,0,1,1], [1,0,1,1], [0,1,1,1]] := by decide

/-! ### ENCODE -/

/-- The codewords under `G_ref` of the 16 data words from `d` on. -/
def codewordsFrom (d : Nat) : List Codeword :=
  (List.range 16).map fun k => encodeWord gRef (BitVec.ofNat 6 (d + k))

/-- The table of 2.4: the codeword of every data word under `G'_ref`. -/
theorem test_encode_table :
    codewordsFrom 0 =
      [0x000, 0x4C1, 0x1C2, 0x503, 0x2C4, 0x605, 0x306, 0x7C7,
       0x708, 0x3C9, 0x6CA, 0x20B, 0x5CC, 0x10D, 0x40E, 0x0CF] ∧
    codewordsFrom 16 =
      [0x350, 0x791, 0x292, 0x653, 0x194, 0x555, 0x056, 0x497,
       0x458, 0x099, 0x59A, 0x15B, 0x69C, 0x25D, 0x75E, 0x39F] ∧
    codewordsFrom 32 =
      [0x3A0, 0x761, 0x262, 0x6A3, 0x164, 0x5A5, 0x0A6, 0x467,
       0x4A8, 0x069, 0x56A, 0x1AB, 0x66C, 0x2AD, 0x7AE, 0x36F] ∧
    codewordsFrom 48 =
      [0x0F0, 0x431, 0x132, 0x5F3, 0x234, 0x6F5, 0x3F6, 0x737,
       0x7F8, 0x339, 0x63A, 0x2FB, 0x53C, 0x1FD, 0x4FE, 0x03F] :=
  ⟨by decide, by decide, by decide, by decide⟩

/-- S1, E2, E3 on a READY block, E4, E5 on a FAILED one. -/
theorem test_step_encode :
    responsesAfter gPrimeRef (readyWith [0x036]) = some [0x03F6] ∧
    responsesAfter gPrimeRef (readyWith [0x040]) = some [0x2000] ∧
    responsesAfter gPrimeRef (readyWith [0x7FF]) = some [0x2000] ∧
    responsesAfter gSing (failedWith [0x036]) = some [0x4000] ∧
    responsesAfter gSing (failedWith [0x7C0]) = some [0x4000] := by decide

/-! ### DECODE -/

/-- The rows of 2.6: received word, overallOk, syndrome, response. -/
def decodeRows : List (Codeword × Bit × Syndrome × ResponseWord) :=
  [(0x000, true, 0x0, 0x0040), (0x3F6, true, 0x0, 0x0076), (0x3F2, false, 0xB, 0x00F6),
   (0x3D2, true, 0x5, 0x0100), (0x400, false, 0x0, 0x00C0), (0x7F6, false, 0x0, 0x00F6),
   (0x401, true, 0x3, 0x0100), (0x040, false, 0x1, 0x00C0), (0x001, false, 0x3, 0x00C0)] ++
  [(0x200, false, 0x8, 0x00C0), (0x007, false, 0xF, 0x0100), (0x0C1, false, 0x0, 0x00C1),
   (0x203, false, 0xC, 0x00CB), (0x20B, true, 0x0, 0x004B), (0x7FF, false, 0xF, 0x0100),
   (0x3FF, true, 0xF, 0x0100), (0x3D6, false, 0xE, 0x00F6), (0x376, false, 0x2, 0x00F6)]

/-- DECODE on those rows under `H_ref`. -/
theorem test_decode_rows :
    decodeRows.all (fun (w, ok, s, resp) =>
      overallOk w == ok && syndrome hRef (coreOf w) == s &&
        responseWord (.decoded (decodeWord hRef w).1 (decodeWord hRef w).2) == resp) = true := by decide

/-- The match masks of 2.6 and 2.7 (M1, M3). -/
theorem test_match_masks :
    matchMask hRef 0xB = 0x004 ∧ matchMask hRef 0x1 = 0x040 ∧ matchMask hRef 0xF = 0x000 ∧
    matchMask (deriveH gDup) 0x3 = 0x003 ∧ matchMask (deriveH gUnit) 0x1 = 0x041 := by decide

/-- S2, S3 and D7, and the malformed matrices M1, M2 and M3, each one step. -/
theorem test_step_decode :
    responsesAfter gPrimeRef (readyWith [0xBF2]) = some [0x00F6] ∧
    responsesAfter gPrimeRef (readyWith [0xBD2]) = some [0x0100] ∧
    responsesAfter gSing (failedWith [0x800]) = some [0x4000] ∧
    responsesAfter gDup ((State.resetWith gDup).issue [.request 0x801]) = some [0x0100] ∧
    responsesAfter gZero ((State.resetWith gZero).issue [.request 0x801]) = some [0x00C1] ∧
    responsesAfter gUnit ((State.resetWith gUnit).issue [.request 0x801]) = some [0x0100] := by
  decide +kernel

/-! ### Steps of the block -/

/-- From reset, the request of `withFetchWord` is the next thing the block performs, whatever `G_PRIME` is. -/
theorem test_withFetchWord_runs :
    step (State.reset.withFetchWord 16 0x036) =
      .next (State.reset.respond (encodeResponse State.reset 0#5 0x36#6)) ∧
    step (State.reset.withFetchWord 16 0xBF2) =
      .next (State.reset.respond (decodeResponse State.reset 0x3F2#11)) := ⟨rfl, rfl⟩

/-- A request before construction is stuck, unanswered (R108), until a reset event, behind it or ahead of it,
constructs the block (R105, R109). -/
theorem test_step_before_construction :
    stepWith gPrimeRef (unbuiltWith [.request 0x036]) = .next (unbuiltWith [.request 0x036]) ∧
    stepWith gPrimeRef (unbuiltWith [.request 0x036, .reset]) = .next (readyWith [0x036]) ∧
    stepWith gPrimeRef (unbuiltWith [.reset, .request 0x036]) = .next (readyWith [0x036]) := ⟨rfl, rfl, rfl⟩

/-! ### Operand forms (R52, R53) -/

/-- The two spellings of R52's examples, and an ENCODE hex operand above `0x3F`. -/
theorem test_assemble :
    assemble (.encode (.tuple [false, true, true, false, true, true])) = some 0x036 ∧
    assemble (.encode (.hex 0x36)) = some 0x036 ∧
    assemble (.decode (.tuple [false, true, false, false, true, true, true, true, true, true, false])) =
      some 0xBF2 ∧
    assemble (.decode (.hex 0x3F2)) = some 0xBF2 ∧
    assemble (.encode (.hex 0x40)) = some 0x040 ∧ assemble (.decode (.hex 0x800)) = none ∧
    assemble (.encode (.tuple [true])) = none := by decide

/-- S1 and a wrong length, as list-level calls; on a FAILED block the status comes first (R96); before construction
there is no response (log entry 16). -/
theorem test_list_calls :
    encodeCall (readyWith []) [false, true, true, false, true, true] = some (.codeword 0x3F6) ∧
    encodeCall (readyWith []) [false, true, true, false, true] = some (.error .invalidLength) ∧
    decodeCall (readyWith []) [false, true, true, false, true, true] = some (.error .invalidLength) ∧
    encodeCall (failedWith []) [] = some (.error .constructionFatal) ∧
    encodeCall (unbuiltWith []) [false, true, true, false, true, true] = none ∧
    toBits (0x3F6#11) =
      [false, true, true, false, true, true, true, true, true, true, false] := by decide

/-! ### Witnesses: states and operands that meet the hypotheses of the statements -/

/-- The inverse of the leading block of `G'_ref`, from the row operations of R70. -/
def inverseRef : Mat 6 6 := #v[0x07, 0x05, 0x04, 0x3F, 0x10, 0x27]

/-- A READY block under `G'_ref` is as the structural statements assume, its code well-formed and scenario 1 met. -/
theorem witness_ready_block :
    (readyWith []).phase = .constructed ∧ (readyWith []).cstatus = .ready ∧
    Systematic (readyWith []).gRow ∧ (readyWith []).hRow = deriveH (readyWith []).gRow ∧
    WfSecded (readyWith []).hRow ∧ ScenarioOne (parityBlock (readyWith []).gRow) ∧
    WfParity (parityBlock gRef) ∧ (readyWith []).inputs = [] := by decide +kernel

theorem witness_structural : Structural (readyWith [0x036]) := fun _ _ => by decide +kernel

/-- A FAILED block. -/
theorem witness_failed_block :
    (failedWith []).phase = .constructed ∧ (failedWith []).cstatus = .failed := by decide

theorem witness_StepPerformsDecodedRequest :
    (readyWith [0x036, 0xFFF]).phase = .constructed ∧
    (readyWith [0x036, 0xFFF]).inputs = .request 0x036 :: [.request 0xFFF] := by decide

/-- A block before construction: without a reset event, and with one at each end of the requests. -/
theorem witness_RequestsBeforeConstruction :
    (unbuiltWith [.request 0x036]).phase = .beforeConstruction ∧
    .reset ∉ (unbuiltWith [.request 0x036]).inputs ∧
    .reset ∈ (unbuiltWith [.request 0x036, .reset]).inputs ∧
    .reset ∈ (unbuiltWith [.reset, .request 0x036]).inputs :=
  ⟨rfl, by simp [unbuiltWith, State.issue, State.powerOn, State.withInputs],
    by simp [unbuiltWith, State.issue, State.powerOn, State.withInputs],
    by simp [unbuiltWith, State.issue, State.powerOn, State.withInputs]⟩

/-- Reserved fields at both ends of their range. -/
theorem witness_ReservedEncodings :
    (0x040#12).getLsbD 11 = false ∧ (0x040#12).extractLsb' 6 5 ≠ 0#5 ∧
    (0x7FF#12).getLsbD 11 = false ∧ (0x7FF#12).extractLsb' 6 5 ≠ 0#5 ∧
    (0x03F#12).extractLsb' 6 5 = 0#5 := by decide

/-- One received word for each clause of DecodeAnswersByErrorClass under `H_ref`: a codeword, a flip of bit 10, two
flips, a located flip at the columns 0, 2 and 9, and three flips that no column matches. -/
theorem witness_DecodeAnswersByErrorClass :
    (parity 0x3F6#11 = false ∧ syndrome hRef (coreOf 0x3F6) = 0#4) ∧
    (parity 0x400#11 = true ∧ syndrome hRef (coreOf 0x400) = 0#4) ∧
    (parity 0x3D2#11 = false ∧ syndrome hRef (coreOf 0x3D2) ≠ 0#4) ∧
    ([(0x001#11, (0 : Fin 10)), (0x3F2#11, 2), (0x200#11, 9)].all fun (w, j) =>
      parity w && decide (∀ k : Fin 10,
        (∀ i : Fin 4, bit hRef i k = dot (row hRef i) (coreOf w)) ↔ k = j)) = true ∧
    (parity 0x007#11 = true ∧ syndrome hRef (coreOf 0x007) ≠ 0#4 ∧
      ∀ k : Fin 10, column hRef k ≠ syndrome hRef (coreOf 0x007)) := by decide +kernel

/-- A reset that changes a register: the FAILED block above, rebuilt with `G'_ref`, and the same before construction
with the reset event behind a request. -/
theorem witness_OnlyConstructionWritesRegisters :
    ((State.resetWith gSing).construct gPrimeRef).cstatus ≠ (State.resetWith gSing).cstatus ∧
    stepWith gPrimeRef ((State.resetWith gSing).issue [.reset]) =
      .next ((State.resetWith gSing).construct gPrimeRef) ∧
    stepWith gPrimeRef { failedWith [] with phase := .beforeConstruction, inputs := [.request 0x036, .reset] } =
      .next (readyWith [0x036]) := ⟨by decide, rfl, rfl⟩

theorem witness_AnswerDependsOnRegistersAlone :
    (readyWith []).cstatus = (readyWith [0x000]).cstatus ∧ (readyWith []).gRow = (readyWith [0x000]).gRow ∧
    (readyWith []).hRow = (readyWith [0x000]).hRow ∧ readyWith [] ≠ readyWith [0x000] := by decide +kernel

theorem witness_EveryOrder : ([0x036, 0x800] : List RequestWord).Perm [0x800, 0x036] := by decide

/-- A READY and a FAILED block that hold what construction left, a reset event among their requests. -/
theorem witness_ResetsAmongRequests :
    HoldsConstruction gPrimeRef ((State.resetWith gPrimeRef).issue [.request 0x036, .reset, .request 0x800]) ∧
    HoldsConstruction gSing ((State.resetWith gSing).issue [.request 0x036, .reset, .request 0x800]) ∧
    (State.resetWith gPrimeRef).cstatus = .ready ∧ (State.resetWith gSing).cstatus = .failed :=
  ⟨fun _ => ⟨rfl, fun _ => ⟨rfl, rfl⟩⟩, fun _ => ⟨rfl, fun _ => ⟨rfl, rfl⟩⟩, by decide, by decide⟩

/-- Both errors a request can meet. -/
theorem witness_Errors :
    answerOf (readyWith []) (.encode 0b00001#5 0x00#6) = .error .invalidLength ∧
    answerOf (failedWith []) (.decode 0x000#11) = .error .constructionFatal := by decide

/-- Elimination stopped after no column, after some and after all. -/
theorem witness_EliminationLeavesUnitColumnsBehind :
    eliminateColumns (sixIndices.take 0) gPrimeRef = .ok gPrimeRef ∧
    eliminateColumns (sixIndices.take 1) gPrimeRef = .ok #v[0x103, 0x306, 0x2C4, 0x3F8, 0x350, 0x262] ∧
    eliminateColumns (sixIndices.take 6) gPrimeRef = .ok gRef := by decide

/-- A row transformation that reaches the identity block, and the inverse of the leading block on both sides. -/
theorem witness_inverse :
    leadingBlock (matMul inverseRef gPrimeRef) = identity 6 ∧ matMul inverseRef gPrimeRef = gRef ∧
    matMul inverseRef (leadingBlock gPrimeRef) = identity 6 ∧
    matMul (leadingBlock gPrimeRef) inverseRef = identity 6 := by decide +kernel

/-- A leading block that has no inverse: two of its rows are equal. -/
theorem witness_singular : ¬Invertible (leadingBlock gSing) := by
  rintro ⟨B, -, hB⟩
  have hrows : row (matMul (leadingBlock gSing) B) 0 = row (matMul (leadingBlock gSing) B) 1 := by
    rw [row_matMul, row_matMul]
    rfl
  rw [hB] at hrows
  exact absurd hrows (by decide)

/-- (a) an identity block, (b) a zero column and two equal rows, (c) two matrices with the same leading block. -/
theorem witness_EliminationCornerCases :
    leadingBlock gRef = identity 6 ∧ column (leadingBlock gNoPivot) 0 = 0#6 ∧
    row (leadingBlock gSing) 0 = row (leadingBlock gSing) 1 ∧
    leadingBlock gRef = leadingBlock gDup ∧ gRef ≠ gDup := by decide +kernel

/-- Two states of different history with a reset next. -/
theorem witness_Resets :
    ((readyWith []).issue [.reset]).inputs = .reset :: [] ∧
    (unbuiltWith [.reset, .request 0x036]).inputs = .reset :: [.request 0x036] := ⟨rfl, rfl⟩

/-- Unique matches at the columns 0, 5, 6 and 9, none, and two. -/
theorem witness_matches :
    (popcount (matchMask hRef 0x3) = 1 ∧ column hRef 0 = 0x3#4) ∧
    (popcount (matchMask hRef 0xE) = 1 ∧ column hRef 5 = 0xE#4) ∧
    (popcount (matchMask hRef 0x1) = 1 ∧ column hRef 6 = 0x1#4) ∧
    (popcount (matchMask hRef 0x8) = 1 ∧ column hRef 9 = 0x8#4) ∧
    popcount (matchMask hRef 0xF) = 0 ∧ popcount (matchMask (deriveH gDup) 0x3) = 2 := by decide +kernel

/-- Patterns of 2.6 with three, four and ten errors, and four errors at the columns `0x3`, `0x7`, `0xB` and `0xC`
of R18, for the clauses of MoreThanTwoErrorsAreReportedByTheirSyndrome. -/
theorem witness_MoreThanTwoErrors :
    (popcount 0x20B#11 = 4 ∧ xorColumns (deriveH gRef) (coreOf 0x20B) = 0#4) ∧
    (popcount 0x00F#11 = 4 ∧ xorColumns (deriveH gRef) (coreOf 0x00F) ≠ 0#4) ∧
    (popcount 0x3FF#11 = 10 ∧ xorColumns (deriveH gRef) (coreOf 0x3FF) = 0xF#4) ∧
    (popcount 0x0C1#11 = 3 ∧ xorColumns (deriveH gRef) (coreOf 0x0C1) = 0#4) ∧
    (popcount 0x203#11 = 3 ∧ xorColumns (deriveH gRef) (coreOf 0x203) = column (deriveH gRef) 3) ∧
    (popcount 0x007#11 = 3 ∧ xorColumns (deriveH gRef) (coreOf 0x007) ≠ 0#4 ∧
      ∀ j : Fin 10, xorColumns (deriveH gRef) (coreOf 0x007) ≠ column (deriveH gRef) j) := by decide +kernel

/-- List operands one short of and one past each length, and the ends of the hex range above `0x3F`. -/
theorem witness_operands :
    (toBits 0#5).length ≠ 6 ∧ (toBits 0#7).length ≠ 6 ∧ (toBits 0#10).length ≠ 11 ∧ (toBits 0#12).length ≠ 11 ∧
    assemble (.encode (.hex 0x40)) = some (encodeRequest (.encode 0b00001#5 0#6)) ∧
    assemble (.encode (.hex 0x7FF)) = some (encodeRequest (.encode 0b11111#5 0x3F#6)) := by decide

end Sys2Proof.Tests
end

section
/-! PROOFS. R23: the matrices of a READY block are orthogonal. -/

namespace Sys2Proof.Machine

/-! ### Words side by side -/

/-- The parity of two words side by side (R59). -/
theorem parity_append {m n : Nat} (u : BitVec m) (v : BitVec n) :
    parity (u ++ v) = (parity u ^^ parity v) := by
  have key : ∀ k, parityUpTo (u ++ v) (n + k) = (parityUpTo u k ^^ parityUpTo v n) := by
    intro k
    induction k with
    | zero =>
      rw [Nat.add_zero, parityUpTo_congr (v := v) fun i hi => by simp [BitVec.getLsbD_append, hi]]
      simp [parityUpTo]
    | succ k ih =>
      rw [← Nat.add_assoc, parityUpTo, ih, parityUpTo, BitVec.getLsbD_append]
      simp
  calc parity (u ++ v) = parityUpTo (u ++ v) (n + m) := by rw [parity, Nat.add_comm n m]
    _ = (parity u ^^ parity v) := key m

theorem dot_append {m n : Nat} (u u' : BitVec m) (v v' : BitVec n) :
    dot (u ++ v) (u' ++ v') = (dot u u' ^^ dot v v') := by
  rw [dot, BitVec.and_append, parity_append]
  rfl

/-! ### The rows of `G` and `H` as their two blocks (R21, R22) -/

@[simp] theorem row_leadingBlock (G : GMat) (i : Fin 6) :
    row (leadingBlock G) i = (row G i).extractLsb' 0 6 := by simp [leadingBlock]

@[simp] theorem row_parityBlock (G : GMat) (i : Fin 6) :
    row (parityBlock G) i = (row G i).extractLsb' 6 4 := by simp [parityBlock]

theorem row_eq_append_blocks (G : GMat) (i : Fin 6) :
    row G i = (row (parityBlock G) i ++ row (leadingBlock G) i : BitVec (4 + 6)) := by
  rw [row_parityBlock, row_leadingBlock, BitVec.extractLsb'_append_extractLsb'_eq_extractLsb' (by rfl)]
  simp

theorem row_deriveH (G : GMat) (i : Fin 4) :
    row (deriveH G) i = (onehot 4 i ++ column (parityBlock G) i : BitVec (4 + 6)) := by
  simp [deriveH]

/-- The leading block of a systematic `G`, row by row (R21). -/
theorem row_leadingBlock_of_systematic {G : GMat} (h : Systematic G) (i : Fin 6) :
    row (leadingBlock G) i = onehot 6 i := by
  rw [h, row_identity]

/-- R23: in `dot(row_i(H), row_j(G))` both blocks contribute `P[j][i]`. -/
theorem dot_row_deriveH_row {G : GMat} (h : Systematic G) (i : Fin 4) (j : Fin 6) :
    dot (row (deriveH G) i) (row G j) = false := by
  rw [row_deriveH, row_eq_append_blocks G j, row_leadingBlock_of_systematic h, dot_append,
    dot_onehot_left, dot_onehot_right, getLsbD_column]
  simp [bit]

/-- Settles O39: both rows fall into their blocks, and each block contributes `P[j][i]` to the parity. -/
theorem readyMatricesAreOrthogonal : Obligations.ReadyMatricesAreOrthogonal := by
  intro s hs hphase hready
  obtain ⟨hG, hH⟩ := hs hphase hready
  rw [hH]
  refine ⟨fun i j => dot_row_deriveH_row hG i j, fun i => ?_, fun i => ?_⟩
  · rw [← row_leadingBlock, row_leadingBlock_of_systematic hG]
  · rw [row_deriveH, BitVec.extractLsb'_append_eq_left]

end Sys2Proof.Machine
end

section
/-! PROOFS. R29: elimination is determined by `G_PRIME`, and so is what a reset leaves. -/

namespace Sys2Proof.Machine

/-! ### The loop invariant of R63 -/

/-- The columns before `n` are columns of the identity. -/
def UnitColumns (M : GMat) (n : Nat) : Prop :=
  ∀ i c : Fin 6, c.val < n → bit M i c = decide (i = c)

theorem unitColumns_zero (M : GMat) : UnitColumns M 0 := nofun

theorem systematic_of_unitColumns {M : GMat} (h : UnitColumns M 6) : Systematic M := by
  apply mat_ext_bit
  intro i j hj
  have hM := h i ⟨j, hj⟩ hj
  rw [bit] at hM
  simp [bit, hj, hM, Fin.ext_iff]

theorem bit_swapRows (M : GMat) (c p i : Fin 6) (j : Nat) :
    bit (swapRows M c p) i j = bit M (if i = c then p else if i = p then c else i) j := by
  simp [swapRows, bit]

theorem bit_clearColumn (M : GMat) (c i : Fin 6) (j : Nat) :
    bit (clearColumn M c) i j =
      if i ≠ c ∧ bit M i c = true then bit M i j ^^ bit M c j else bit M i j := by
  rw [clearColumn, bit_ofRows]
  split
  · rw [rowXor, BitVec.getLsbD_xor]; rfl
  · rfl

/-- The swap moves rows from `c` on only, whose finished columns are zero. -/
theorem unitColumns_swapRows {M : GMat} {c p : Fin 6} (h : UnitColumns M c) (hp : c ≤ p) :
    UnitColumns (swapRows M c p) c := by
  intro i j hj
  have hcj : c ≠ j := by omega
  have hpj : p ≠ j := by omega
  rw [bit_swapRows, h _ j hj]
  split_ifs with hic hip
  · simp [hic, hcj, hpj]
  · simp [hip, hcj, hpj]
  · rfl

/-- With a 1 at the pivot, clearing finishes column `c` and leaves the finished columns alone. -/
theorem unitColumns_clearColumn {M : GMat} {c : Fin 6} (h : UnitColumns M c) (hc : bit M c c = true) :
    UnitColumns (clearColumn M c) (c + 1) := by
  intro i j hj
  rw [bit_clearColumn]
  rcases Nat.lt_succ_iff_lt_or_eq.mp hj with hlt | heq
  · have hcj : bit M c j = false := by
      rw [h c j hlt]
      exact decide_eq_false (by omega)
    rw [hcj, h i j hlt]
    simp
  · obtain rfl : j = c := Fin.ext heq
    by_cases hi : i = j
    · simp [hi, hc]
    · cases bit M i j <;> simp [hi, hc]

theorem unitColumns_eliminateColumn {M N : GMat} {c : Fin 6} (h : UnitColumns M c)
    (hN : eliminateColumn M c = .ok N) : UnitColumns N (c + 1) := by
  unfold eliminateColumn at hN
  split at hN
  · cases hN
  · rename_i p hp
    cases hN
    obtain ⟨hle, hbit⟩ := findPivot_some hp
    refine unitColumns_clearColumn (unitColumns_swapRows h hle) ?_
    simpa [bit_swapRows] using hbit

/-- The loop over one more column (R63). -/
theorem eliminateColumns_take_succ (gp : GMat) (n : Fin 6) :
    eliminateColumns (sixIndices.take (n + 1)) gp =
      match eliminateColumns (sixIndices.take n) gp with
      | .error e => .error e
      | .ok M => eliminateColumn M n := by
  have htake : sixIndices.take (n + 1) = sixIndices.take n ++ [n] := by revert n; decide
  rw [htake, eliminateColumns_append]
  cases eliminateColumns (sixIndices.take n) gp with
  | error e => rfl
  | ok M =>
    simp only [eliminateColumns]
    cases eliminateColumn M n <;> rfl

/-- R63: the loop invariant. -/
theorem unitColumns_eliminateColumns {gp M : GMat} {n : Nat} (hn : n ≤ 6)
    (h : eliminateColumns (sixIndices.take n) gp = .ok M) : UnitColumns M n := by
  induction n generalizing M with
  | zero => exact unitColumns_zero M
  | succ n ih =>
    rw [eliminateColumns_take_succ gp ⟨n, hn⟩] at h
    split at h
    · cases h
    · rename_i N hN
      exact unitColumns_eliminateColumn (ih (by omega) hN) h

/-- A loop that fails does so at some column without a pivot (R65). -/
theorem eliminateColumns_error {gp : GMat} {e : CodecError} {n : Nat} (hn : n ≤ 6)
    (h : eliminateColumns (sixIndices.take n) gp = .error e) :
    e = .constructionFatal ∧ ∃ (c : Fin 6) (M : GMat),
      eliminateColumns (sixIndices.take c) gp = .ok M ∧ findPivot M c = none := by
  induction n with
  | zero => cases h
  | succ n ih =>
    rw [eliminateColumns_take_succ gp ⟨n, hn⟩] at h
    split at h
    · rename_i e' he'
      cases h
      exact ih (by omega) he'
    · rename_i M hM
      unfold eliminateColumn at h
      split at h
      · rename_i hp
        cases h
        exact ⟨rfl, ⟨n, hn⟩, M, hM, hp⟩
      · cases h

/-- R64: a successful elimination reaches a systematic matrix. -/
theorem systematic_of_eliminate {gp G : GMat} (h : eliminate gp = .ok G) : Systematic G :=
  systematic_of_unitColumns (unitColumns_eliminateColumns (Nat.le_refl 6) h)

/-! ### A column without a pivot -/

/-- Without a pivot, column `c` is the sum of the finished columns its 1 bits select: a vector that the leading block
takes to zero. -/
theorem dot_kernel_of_no_pivot {M : GMat} {c : Fin 6} (h : UnitColumns M c)
    (hp : findPivot M c = none) (i : Fin 6) :
    dot (row (leadingBlock M) i) (column M c ^^^ onehot 6 c) = false := by
  have hzero : ∀ k : Fin 6, ¬k.val < c.val → bit M k c = false := fun k hk =>
    findPivot_none hp k (by omega)
  have hselect : row (leadingBlock M) i &&& column M c = onehot 6 i &&& column M c := by
    apply word_ext
    intro k
    rw [BitVec.getLsbD_and, BitVec.getLsbD_and, getLsbD_column]
    by_cases hk : k.val < c.val
    · have hM := h i k hk
      rw [bit] at hM
      simp [hM, Fin.ext_iff]
    · simp [hzero k hk]
  have hfinished : dot (row (leadingBlock M) i) (column M c) = bit M i c := by
    rw [dot, hselect, ← dot, dot_onehot_left]
    simp
  rw [dot_xor_right, hfinished, dot_onehot_right]
  simp [bit]

/-- A matrix with a left inverse takes no vector but zero to zero. -/
theorem eq_zero_of_left_inverse {m : Nat} {B A : Mat m m} (hBA : matMul B A = identity m) {v : BitVec m}
    (hv : ∀ i, dot (row A i) v = false) : v = 0#m := by
  apply word_ext
  intro i
  have hrow : vecMulMatrix (row B i) A = onehot m i := by rw [← row_matMul, hBA, row_identity]
  have hdot : dot (vecMulMatrix (row B i) A) v = false := by
    have hAv : (bitsOf m fun k => if h : k < m then dot (row A ⟨k, h⟩) v else false) = 0#m :=
      word_ext fun k => by simp [hv]
    rw [dot_vecMulMatrix, hAv, dot_zero_right]
  rw [hrow, dot_onehot_left] at hdot
  simpa using hdot

/-- R64: a row transformation that reaches the identity block gives the result of the elimination, whatever its
pivots. -/
theorem eliminate_eq_of_systematic_matMul {gp : GMat} {E : Mat 6 6} (hE : Systematic (matMul E gp)) :
    eliminate gp = .ok (matMul E gp) := by
  cases h : eliminate gp with
  | error e =>
    obtain ⟨-, c, M, hM, hp⟩ := eliminateColumns_error (Nat.le_refl 6) h
    obtain ⟨E', F, hFE', hME'⟩ := eliminateColumns_eq_matMul hM
    have hinv : matMul (matMul E F) (leadingBlock M) = identity 6 := by
      rw [hME', ← leadingBlock_matMul, matMul_assoc, ← matMul_assoc F, hFE', identity_matMul, hE]
    have hzero := eq_zero_of_left_inverse hinv
      (dot_kernel_of_no_pivot (unitColumns_eliminateColumns c.isLt.le hM) hp)
    have hc := congrArg (BitVec.getLsbD · c) hzero
    rw [BitVec.getLsbD_xor, getLsbD_column, findPivot_none hp c le_rfl] at hc
    simp at hc
  | ok G =>
    obtain ⟨E', F, hFE', hG⟩ := eliminateColumns_eq_matMul h
    have hE' : matMul E' (leadingBlock gp) = identity 6 := by
      rw [← leadingBlock_matMul, ← hG, systematic_of_eliminate h]
    have hA : leadingBlock gp = F := by
      rw [← identity_matMul (leadingBlock gp), ← hFE', matMul_assoc, hE', matMul_identity]
    have hEF : matMul E F = identity 6 := by rw [← hA, ← leadingBlock_matMul, hE]
    have hEE' : E = E' := by
      rw [← matMul_identity E, ← hFE', ← matMul_assoc, hEF, identity_matMul]
    rw [hG, hEE']

/-- Settles O34: a reset leaves what construction from `G_PRIME` writes, and the elimination's result is the only
systematic row transformation of `G_PRIME`. -/
theorem resetForgetsEarlierState : Obligations.ResetForgetsEarlierState := by
  constructor
  · intro gp s s' t t' rest rest' hs hs' ht ht'
    rw [stepWith_reset hs] at ht
    rw [stepWith_reset hs'] at ht'
    cases ht
    cases ht'
    exact ⟨rfl, fun _ => ⟨rfl, rfl⟩⟩
  · intro gp s t rest E hs ht hE
    rw [stepWith_reset hs] at ht
    cases ht
    exact constructed_of_ok (eliminate_eq_of_systematic_matMul hE)

end Sys2Proof.Machine
end

section
/-! PROOFS. R35, R36: a request's response depends on the registers alone, so the order of requests does not matter. -/

namespace Sys2Proof.Machine

/-! ### What an answer reads (R25, R35) -/

/-- An answer reads `CSTATUS`, `G_ROW` and `H_ROW` only. -/
theorem answerOf_congr {s t : State} (hc : s.cstatus = t.cstatus) (hg : s.gRow = t.gRow)
    (hh : s.hRow = t.hRow) (i : Instr) : answerOf s i = answerOf t i := by
  cases i with
  | encode rsvd data => exact encodeResponse_congr hc hg rsvd data
  | decode cw => exact decodeResponse_congr hc hh cw

/-- Settles O11: both states answer the same response, and answering is all that `exec` does. -/
theorem answerDependsOnRegistersAlone : Obligations.AnswerDependsOnRegistersAlone := by
  intro i s t hc hg hh
  refine ⟨responseWord (answerOf s i), exec_eq_respond i s, ?_⟩
  rw [answerOf_congr hc hg hh i]
  exact exec_eq_respond i t

/-! ### A run on requests (R36) -/

/-- What was answered before does not enter an answer (R25). -/
theorem answer_respond (s : State) (r : Response) : answer (s.respond r) = answer s :=
  funext fun req => congrArg responseWord (answerOf_congr rfl rfl rfl (decodeRequest req))

/-- A constructed block with only requests pending answers them in order, each from the registers it started with,
and keeps its registers. -/
theorem runWith_requests (gp : GMat) {s : State} (hp : s.phase = .constructed) (reqs : List RequestWord) :
    runWith gp reqs.length (s.withInputs (reqs.map .request)) =
      .next { s with inputs := [], responses := s.responses ++ reqs.map (answer s) } := by
  induction reqs generalizing s with
  | nil => simp [runWith, State.withInputs]
  | cons req reqs ih =>
    have hstep : stepWith gp (s.withInputs ((req :: reqs).map .request)) =
        .next ((s.respond (answerOf s (decodeRequest req))).withInputs (reqs.map .request)) := by
      rw [← answerOf_withInputs s ((req :: reqs).map .request)]
      exact stepWith_request hp rfl
    rw [List.length_cons, runWith_succ hstep, ih (s := s.respond _) hp, answer_respond]
    simp [State.respond, answer]

/-- Settles O13: both runs answer every request from the registers they started with, and `map` keeps permutations. -/
theorem everyOrderGivesEveryRequestTheSameResponse :
    Obligations.EveryOrderGivesEveryRequestTheSameResponse := by
  intro gp s reqs reqs' hp hperm
  exact ⟨_, _, runWith_requests gp hp reqs, runWith_requests gp hp reqs', rfl, rfl,
    ⟨rfl, rfl, rfl, rfl⟩, ⟨rfl, rfl, rfl, rfl⟩, rfl, rfl, (hperm.map (answer s)).append_left s.responses⟩

end Sys2Proof.Machine
end

section
/-! PROOFS. R40, R41, R48, R49: request words and operations, and the reserved encodings. -/

namespace Sys2Proof.Machine

/-! ### Decoding by `OP` (R48), and the two directions -/

theorem decodeRequest_of_opField_false {req : RequestWord} (h : opField req = false) :
    decodeRequest req = .encode (rsvdField req) (dataField req) := by simp [decodeRequest, h]

theorem decodeRequest_of_opField_true {req : RequestWord} (h : opField req = true) :
    decodeRequest req = .decode (cwField req) := by simp [decodeRequest, h]

@[simp] theorem decodeRequest_encodeRequest (i : Instr) : decodeRequest (encodeRequest i) = i := by
  cases i with
  | encode rsvd data =>
    obtain ⟨hop, hrsvd, hdata⟩ := Laws.RequestLayout.encode rsvd data
    rw [decodeRequest_of_opField_false hop, hrsvd, hdata]
  | decode cw =>
    obtain ⟨hop, hcw⟩ := Laws.RequestLayout.decode cw
    rw [decodeRequest_of_opField_true hop, hcw]

/-- `OP` as the one-bit field that format E and format D begin with (R39). -/
theorem extractLsb'_op (req : RequestWord) : req.extractLsb' 11 1 = BitVec.ofBool (opField req) := by
  apply BitVec.eq_of_getLsbD_eq
  intro i hi
  simp [opField, show i = 0 by omega]

@[simp] theorem encodeRequest_decodeRequest (req : RequestWord) : encodeRequest (decodeRequest req) = req := by
  have hfmt := extractLsb'_op req
  cases hop : opField req with
  | false =>
    rw [hop] at hfmt
    calc encodeRequest (decodeRequest req)
        = (req.extractLsb' 11 1 ++ req.extractLsb' 6 5 ++ req.extractLsb' 0 6 : BitVec (1 + 5 + 6)) := by
          rw [decodeRequest_of_opField_false hop, hfmt]; rfl
      _ = req := by
          rw [BitVec.extractLsb'_append_extractLsb'_eq_extractLsb' (by rfl),
            BitVec.extractLsb'_append_extractLsb'_eq_extractLsb' (by rfl)]
          exact BitVec.extractLsb'_eq_self
  | true =>
    rw [hop] at hfmt
    calc encodeRequest (decodeRequest req)
        = (req.extractLsb' 11 1 ++ req.extractLsb' 0 11 : BitVec (1 + 11)) := by
          rw [decodeRequest_of_opField_true hop, hfmt]; rfl
      _ = req := by
          rw [BitVec.extractLsb'_append_extractLsb'_eq_extractLsb' (by rfl)]
          exact BitVec.extractLsb'_eq_self

/-! ### Reserved encodings (R49) -/

theorem wellFormed_decodeRequest_eq_false_iff (req : RequestWord) :
    (decodeRequest req).wellFormed = false ↔ opField req = false ∧ rsvdField req ≠ 0#5 := by
  cases hop : opField req with
  | false => simp [decodeRequest_of_opField_false hop, Instr.wellFormed]
  | true => simp [decodeRequest_of_opField_true hop, Instr.wellFormed]

/-- Settles O8: with `OP = 0` the word is an ENCODE, whose length check fails on its reserved field. -/
theorem reservedEncodingsAnswerInvalidLength : Obligations.ReservedEncodingsAnswerInvalidLength := by
  refine ⟨fun s req hready hop hrsvd => ?_, wellFormed_decodeRequest_eq_false_iff⟩
  rw [decodeRequest_of_opField_false hop, exec_eq_respond, answerOf,
    encodeResponse_reserved (rsvd := rsvdField req) hready hrsvd, State.respond, responseWord_invalidLength]

end Sys2Proof.Machine
end

section
/-! PROOFS. R42 to R47: the fields of a response word, and `PRESENT` against `STATUS`. -/

namespace Sys2Proof.Machine

/-! ### The fields of an ENCODE success response (R43) -/

section codeword
variable (c : Codeword)

@[simp] theorem errField_codeword : errField (responseWord (.codeword c)) = 0#3 := by
  rw [responseWord_codeword, errField, BitVec.extractLsb'_append_eq_of_le (by decide)]
  rfl

theorem zeroBits_codeword : (responseWord (.codeword c)).extractLsb' 11 2 = 0#2 := by
  rw [responseWord_codeword, BitVec.extractLsb'_append_eq_of_le (by decide)]
  rfl

@[simp] theorem codewordField_codeword : codewordField (responseWord (.codeword c)) = c := by
  rw [responseWord_codeword]
  exact BitVec.extractLsb'_append_eq_right

end codeword

/-! ### The fields of a DECODE success response (R44) -/

section decoded
variable (d : Option DataWord) (st : Status)

/-- The word as `DATA` below the four fields of fixed width above it. -/
theorem responseWord_decoded :
    responseWord (.decoded d st) =
      (0b000#3 ++ 0b0000#4 ++ statusCode st ++ presentBit d ++ dataBits d : BitVec (3 + 4 + 2 + 1 + 6)) := rfl

@[simp] theorem errField_decoded : errField (responseWord (.decoded d st)) = 0#3 := by
  rw [responseWord_decoded, errField]
  repeat rw [BitVec.extractLsb'_append_eq_of_le (by decide)]
  rfl

theorem zeroBits_decoded : (responseWord (.decoded d st)).extractLsb' 9 4 = 0#4 := by
  rw [responseWord_decoded]
  repeat rw [BitVec.extractLsb'_append_eq_of_le (by decide)]
  rfl

@[simp] theorem statusField_decoded : statusField (responseWord (.decoded d st)) = statusCode st := by
  rw [responseWord_decoded, statusField]
  repeat rw [BitVec.extractLsb'_append_eq_of_le (by decide)]
  exact BitVec.extractLsb'_append_eq_right

@[simp] theorem presentField_decoded : presentField (responseWord (.decoded d st)) = d.isSome := by
  rw [responseWord_decoded, presentField, BitVec.getLsbD_append, BitVec.getLsbD_append]
  cases d <;> simp [presentBit]

@[simp] theorem respDataField_decoded : respDataField (responseWord (.decoded d st)) = d.getD 0#6 := by
  have h : respDataField (responseWord (.decoded d st)) = dataBits d := BitVec.extractLsb'_append_eq_right
  cases d <;> exact h

end decoded

/-! ### The fields of an error response (R47) -/

@[simp] theorem errField_error (e : CodecError) : errField (responseWord (.error e)) = errorCode e :=
  BitVec.extractLsb'_append_eq_left

@[simp] theorem bodyField_error (e : CodecError) : bodyField (responseWord (.error e)) = 0#13 :=
  BitVec.extractLsb'_append_eq_right

/-- Settles O19, one lemma per field. -/
theorem responseFieldsStandWhereTheSpecPutsThem : Obligations.ResponseFieldsStandWhereTheSpecPutsThem :=
  ⟨fun c => ⟨errField_codeword c, zeroBits_codeword c, codewordField_codeword c⟩,
    fun d st => ⟨errField_decoded d st, zeroBits_decoded d st, statusField_decoded d st,
      presentField_decoded d st, respDataField_decoded d st⟩,
    fun e => ⟨errField_error e, bodyField_error e⟩⟩

/-! ### Data and status go together (R46) -/

/-- The correction mux gives data with CORRECTED and none with UNCORRECTABLE (R86, R87). -/
theorem locate_cases (H : HMat) (x : CoreWord) (s : Syndrome) :
    (∃ d, locate H x s = (some d, .corrected)) ∨ locate H x s = (none, .uncorrectable) := by
  unfold locate
  split
  · exact .inl ⟨_, rfl⟩
  · exact .inr rfl

/-- What DECODE can give: data with VALID or CORRECTED, or no data with UNCORRECTABLE (R82). -/
theorem decodeWord_cases (H : HMat) (w : Codeword) :
    (∃ d, decodeWord H w = (some d, .valid)) ∨ (∃ d, decodeWord H w = (some d, .corrected)) ∨
      decodeWord H w = (none, .uncorrectable) := by
  by_cases hs : syndrome H (coreOf w) = 0#4 <;> cases hp : overallOk w
  · exact .inr (.inl ⟨_, decodeWord_overallFlipped hp hs⟩)
  · exact .inl ⟨_, decodeWord_valid hp hs⟩
  · rw [decodeWord_located hp hs]
    exact .inr (locate_cases H (coreOf w) (syndrome H (coreOf w)))
  · exact .inr (.inr (decodeWord_even hp hs))

/-- The response word of a DECODE request on a READY block (R77). -/
theorem answer_decode_ready {s : State} (h : s.cstatus = .ready) (cw : Codeword) :
    answer s (encodeRequest (.decode cw)) =
      responseWord (.decoded (decodeWord s.hRow cw).1 (decodeWord s.hRow cw).2) := by
  rw [answer, decodeRequest_encodeRequest, answerOf, decodeResponse_ready h]

/-- Settles O20: each of DECODE's three kinds of result has the fields the rule gives it. -/
theorem dataIsPresentExactlyWhenNotUncorrectable : Obligations.DataIsPresentExactlyWhenNotUncorrectable := by
  intro s cw hready resp
  have hresp : resp = responseWord (.decoded (decodeWord s.hRow cw).1 (decodeWord s.hRow cw).2) :=
    answer_decode_ready hready cw
  rw [hresp, presentField_decoded, statusField_decoded]
  obtain ⟨d, h⟩ | ⟨d, h⟩ | h := decodeWord_cases s.hRow cw <;> rw [h] <;> simp [statusCode]

end Sys2Proof.Machine
end

section
/-! PROOFS. R52, R53: list operands and the assembler's forms against request words. -/

namespace Sys2Proof.Machine

/-! ### List operands (R53) -/

section listCall
variable {L : Nat} {s : State} {op : BitVec L → Response}

theorem listCall_toBits_ready (hp : s.phase = .constructed) (h : s.cstatus = .ready) (v : BitVec L) :
    listCall L s (toBits v) op = some (op v) := by
  rw [listCall_ready hp h, if_pos (length_toBits v), bitsOf_toBits]

theorem listCall_wrongLength (hp : s.phase = .constructed) (h : s.cstatus = .ready) {bits : List Bit}
    (hl : bits.length ≠ L) : listCall L s bits op = some (.error .invalidLength) := by
  rw [listCall_ready hp h, if_neg hl]

end listCall

theorem encodeCall_toBits {s : State} (hp : s.phase = .constructed) (word : DataWord) :
    encodeCall s (toBits word) = some (answerOf s (.encode 0#5 word)) := by
  cases h : s.cstatus with
  | failed => rw [answerOf_failed h, encodeCall, listCall_failed hp h]
  | ready => rw [answerOf, encodeResponse_ready h, encodeCall, listCall_toBits_ready hp h]

theorem decodeCall_toBits {s : State} (hp : s.phase = .constructed) (cw : Codeword) :
    decodeCall s (toBits cw) = some (answerOf s (.decode cw)) := by
  cases h : s.cstatus with
  | failed => rw [answerOf_failed h, decodeCall, listCall_failed hp h]
  | ready => rw [answerOf, decodeResponse_ready h, decodeCall, listCall_toBits_ready hp h]

/-- Settles O56: a word's bits read back as the word, so the call and the request answer alike in either status. -/
theorem listOperandsAgreeWithRequests : Obligations.ListOperandsAgreeWithRequests :=
  fun _ hp => ⟨encodeCall_toBits hp, decodeCall_toBits hp, fun _ h hl => listCall_wrongLength hp h hl,
    fun _ h hl => listCall_wrongLength hp h hl⟩

/-! ### The assembler's payloads (R52) -/

theorem asmPayload_tuple_toBits {L : Nat} (v : BitVec L) :
    asmPayload L (.tuple (toBits v)) = some (v.setWidth 11) := by
  rw [asmPayload, if_pos (length_toBits v), bitsOf_toBits]

theorem asmPayload_hex (L : Nat) {n : Nat} (h : n < 0x800) : asmPayload L (.hex n) = some (BitVec.ofNat 11 n) :=
  if_pos h

theorem asmPayload_hex_toNat {L : Nat} (hL : L ≤ 11) (v : BitVec L) :
    asmPayload L (.hex v.toNat) = some (v.setWidth 11) := by
  have hv : v.toNat < 0x800 := Nat.lt_of_lt_of_le v.isLt (Nat.pow_le_pow_right (by decide) hL)
  rw [asmPayload_hex L hv, BitVec.ofNat_toNat]

/-! ### Assembled requests: a zero field on top is zero extension (R52) -/

theorem zero_append_eq_setWidth (m : Nat) {n : Nat} (v : BitVec n) : 0#m ++ v = v.setWidth (m + n) := by
  apply BitVec.eq_of_toNat_eq
  have hv : v.toNat < 2 ^ (m + n) := BitVec.toNat_lt_twoPow_of_le (Nat.le_add_left n m)
  simp [BitVec.toNat_append, Nat.mod_eq_of_lt hv]

/-- `RSVD = 00000` and `OP = 0` above a data word extend it with zeros (R40). -/
theorem encodeRequest_encode_eq_setWidth (word : DataWord) :
    encodeRequest (.encode 0#5 word) = word.setWidth 12 :=
  zero_append_eq_setWidth 6 word

/-- An ENCODE line assembles to its payload extended with zeros, `OP = 0` among them. -/
theorem assemble_encode {o : AsmOperand} {p : BitVec 11} (h : asmPayload 6 o = some p) :
    assemble (.encode o) = some (p.setWidth 12) := by
  rw [assemble, h, Option.map_some, zero_append_eq_setWidth]

/-- A DECODE line assembles to its payload with `OP = 1` above it. -/
theorem assemble_decode {o : AsmOperand} {p : BitVec 11} (h : asmPayload 11 o = some p) :
    assemble (.decode o) = some (encodeRequest (.decode p)) := by
  rw [assemble, h, Option.map_some, encodeRequest]

theorem assemble_encode_word {o : AsmOperand} {word : DataWord} (h : asmPayload 6 o = some (word.setWidth 11)) :
    assemble (.encode o) = some (encodeRequest (.encode 0#5 word)) := by
  rw [assemble_encode h, encodeRequest_encode_eq_setWidth, BitVec.setWidth_setWidth (by decide)]

theorem assemble_encode_hex {n : Nat} (h : n < 0x800) : assemble (.encode (.hex n)) = some (BitVec.ofNat 12 n) := by
  have hn : (BitVec.ofNat 11 n).toNat = n := Nat.mod_eq_of_lt h
  rw [assemble_encode (asmPayload_hex 6 h), ← BitVec.ofNat_toNat, hn]

/-! ### A number above `0x3F` as an ENCODE request (R40) -/

theorem opField_ofNat {n : Nat} (h : n < 0x800) : opField (BitVec.ofNat 12 n) = false := by
  rw [opField, BitVec.getLsbD_ofNat, Nat.testBit_lt_two_pow h, Bool.and_false]

theorem toNat_rsvdField (req : RequestWord) : (rsvdField req).toNat = req.toNat / 64 % 32 := by
  rw [rsvdField, BitVec.extractLsb'_toNat, Nat.shiftRight_eq_div_pow]

theorem rsvdField_ofNat_ne_zero {n : Nat} (hlow : 0x3F < n) (h : n < 0x800) :
    rsvdField (BitVec.ofNat 12 n) ≠ 0#5 := by
  intro hz
  have hdiv : (BitVec.ofNat 12 n).toNat / 64 % 32 = 0 := by rw [← toNat_rsvdField, hz]; rfl
  rw [BitVec.toNat_ofNat] at hdiv
  omega

/-- An ENCODE hex operand above `0x3F` assembles to an ENCODE with its reserved field set. -/
theorem exists_reserved_encodeRequest {n : Nat} (hlow : 0x3F < n) (h : n < 0x800) :
    ∃ (rsvd : BitVec 5) (data : DataWord), rsvd ≠ 0#5 ∧ BitVec.ofNat 12 n = encodeRequest (.encode rsvd data) := by
  refine ⟨rsvdField (BitVec.ofNat 12 n), dataField (BitVec.ofNat 12 n), rsvdField_ofNat_ne_zero hlow h, ?_⟩
  rw [← decodeRequest_of_opField_false (opField_ofNat h), encodeRequest_decodeRequest]

/-- Settles O57: both forms of a word have one payload, which assembles to the operation's request; above `0x3F` the
operand's upper bits stand in the reserved field. -/
theorem assemblerFormsDenoteTheSameRequest : Obligations.AssemblerFormsDenoteTheSameRequest := by
  refine ⟨fun word => ⟨?_, ?_⟩, fun cw => ⟨?_, ?_⟩, fun n hlow hn => ⟨assemble_encode_hex hn, ?_⟩, ?_⟩
  · exact assemble_encode_word (asmPayload_tuple_toBits word)
  · exact assemble_encode_word (asmPayload_hex_toNat (by decide) word)
  · rw [assemble_decode (asmPayload_tuple_toBits cw), BitVec.setWidth_eq]
  · rw [assemble_decode (asmPayload_hex_toNat (Nat.le_refl 11) cw), BitVec.setWidth_eq]
  · obtain ⟨rsvd, data, hr, hreq⟩ := exists_reserved_encodeRequest hlow hn
    exact ⟨rsvd, data, hr, hreq ▸ assemble_encode_hex hn, fun s hready => encodeResponse_reserved hready hr data⟩
  · decide

end Sys2Proof.Machine
end

section
/-! PROOFS. R54 to R57: the primitives `transpose`, `dot`, `vecMulMatrix` and `rowXor`. -/

namespace Sys2Proof.Machine

/-! ### `transpose` (R54) -/

theorem transpose_transpose {a b : Nat} (M : Mat a b) : transpose (transpose M) = M :=
  mat_ext fun i => by rw [row_transpose, column_transpose]

/-- Settles O21: a transpose's rows are the columns, and its columns the rows. -/
theorem transposeSwapsRowsAndColumns : Obligations.TransposeSwapsRowsAndColumns :=
  ⟨fun _ _ M i j => bit_transpose M j i, fun _ _ M => transpose_transpose M, by decide⟩

/-! ### `dot` (R55) -/

theorem parityUpTo_eq_foldl {L : Nat} (v : BitVec L) (n : Nat) :
    parityUpTo v n = (List.range n).foldl (fun acc i => acc ^^ v.getLsbD i) false := by
  induction n with
  | zero => rfl
  | succ n ih => rw [parityUpTo, List.range_succ, List.foldl_concat, ih, Bool.xor_comm]

theorem dot_eq_foldl {L : Nat} (u v : BitVec L) :
    dot u v = (List.range L).foldl (fun acc i => acc ^^ (u.getLsbD i && v.getLsbD i)) false := by
  rw [dot, parity, parityUpTo_eq_foldl]
  simp only [BitVec.getLsbD_and]

theorem dot_eq_true_iff {L : Nat} (u v : BitVec L) : dot u v = true ↔ popcount (u &&& v) % 2 = 1 := by
  rw [dot, parity_eq_popcount_odd, decide_eq_true_iff]

theorem anyDot_of_len_ne {u v : AnyVec} (h : u.len ≠ v.len) : anyDot u v = .error .dimensionMismatch :=
  dif_neg h.symm

theorem anyDot_mk {L : Nat} (u v : BitVec L) : anyDot ⟨L, u⟩ ⟨L, v⟩ = .ok (dot u v) :=
  dif_pos rfl

/-- Settles O22: `parity` unrolls to the XOR over the positions, and is the oddness of the number of 1 bits. -/
theorem dotIsTheParityOfSharedOnes : Obligations.DotIsTheParityOfSharedOnes :=
  ⟨fun _ => dot_eq_foldl, fun _ _ => rfl, fun _ => dot_eq_true_iff, fun _ _ => anyDot_of_len_ne,
    fun _ => anyDot_mk, by decide⟩

/-! ### `vecMulMatrix` (R56) -/

/-- Entry `j` of the product, the index bounded by its type. -/
theorem getLsbD_vecMulMatrix_fin {a b : Nat} (v : BitVec a) (M : Mat a b) (j : Fin b) :
    (vecMulMatrix v M).getLsbD j = dot v (column M j) := by
  rw [getLsbD_vecMulMatrix, decide_eq_true j.isLt, Bool.true_and]

/-- Bit `j` of an XOR of selected words is the XOR of the selected words' bits `j`. -/
theorem getLsbD_foldl_xor_selected {α : Type} {b : Nat} (p : α → Bit) (f : α → BitVec b) (l : List α)
    (init : BitVec b) (j : Nat) :
    (l.foldl (fun acc x => if p x then acc ^^^ f x else acc) init).getLsbD j =
      l.foldl (fun acc x => acc ^^ (p x && (f x).getLsbD j)) (init.getLsbD j) := by
  refine (List.foldl_hom (fun w : BitVec b => w.getLsbD j) fun acc x => ?_).symm
  cases p x <;> simp

/-- Both are the XOR over `i` of `v[i]` and `M[i][j]`. -/
theorem getLsbD_xorRows {a b : Nat} (M : Mat a b) (v : BitVec a) (j : Nat) :
    (xorRows M v).getLsbD j = dot v (column M j) := by
  rw [xorRows, getLsbD_foldl_xor_selected, dot_eq_foldl, ← List.map_coe_finRange_eq_range, List.foldl_map]
  simp only [getLsbD_column, bit, BitVec.getLsbD_zero]

theorem vecMulMatrix_eq_xorRows {a b : Nat} (v : BitVec a) (M : Mat a b) : vecMulMatrix v M = xorRows M v :=
  word_ext fun j => by rw [getLsbD_vecMulMatrix_fin, getLsbD_xorRows]

theorem anyVecMulMatrix_of_len_ne {v : AnyVec} {M : AnyMat} (h : v.len ≠ M.rows) :
    anyVecMulMatrix v M = .error .dimensionMismatch :=
  dif_neg h

theorem anyVecMulMatrix_mk {a b : Nat} (v : BitVec a) (M : Mat a b) :
    anyVecMulMatrix ⟨a, v⟩ ⟨a, b, M⟩ = .ok ⟨b, vecMulMatrix v M⟩ :=
  dif_pos rfl

/-- Settles O23: the column form and the selected-row form have the same bits. -/
theorem vecMulMatrixIsTheSumOfSelectedRows : Obligations.VecMulMatrixIsTheSumOfSelectedRows :=
  ⟨fun _ _ => getLsbD_vecMulMatrix_fin, fun _ _ => vecMulMatrix_eq_xorRows, fun _ _ => vecMulMatrix_zero,
    fun _ _ M i => vecMulMatrix_onehot i M, fun _ _ => anyVecMulMatrix_of_len_ne,
    fun _ _ => anyVecMulMatrix_mk, by decide⟩

/-! ### `rowXor` (R57) -/

theorem getLsbD_rowXor {L : Nat} (u v : BitVec L) (i : Nat) :
    (rowXor u v).getLsbD i = (u.getLsbD i ^^ v.getLsbD i) :=
  BitVec.getLsbD_xor

@[simp] theorem rowXor_self {L : Nat} (u : BitVec L) : rowXor u u = 0#L :=
  BitVec.xor_self

@[simp] theorem rowXor_zero {L : Nat} (u : BitVec L) : rowXor u 0#L = u :=
  BitVec.xor_zero

theorem anyRowXor_of_len_ne {u v : AnyVec} (h : u.len ≠ v.len) : anyRowXor u v = .error .dimensionMismatch :=
  dif_neg h.symm

theorem anyRowXor_mk {L : Nat} (u v : BitVec L) : anyRowXor ⟨L, u⟩ ⟨L, v⟩ = .ok ⟨L, rowXor u v⟩ :=
  dif_pos rfl

/-- Settles O24, one lemma per clause. -/
theorem rowXorAddsElementwise : Obligations.RowXorAddsElementwise :=
  ⟨fun _ u v i => getLsbD_rowXor u v i, fun _ u => ⟨rowXor_self u, rowXor_zero u⟩,
    fun _ _ => anyRowXor_of_len_ne, fun _ => anyRowXor_mk, by decide⟩

end Sys2Proof.Machine
end

section
/-! PROOFS. R64, R65: what the elimination answers, as a statement about the leading block. -/

namespace Sys2Proof.Machine

/-! ### Success (R64) -/

/-- The elimination's row transformation is a two-sided inverse of the leading block: it takes the block to the
identity, and its own left inverse is then the block. -/
theorem exists_inverse_of_eliminate {gp G : GMat} (h : eliminate gp = .ok G) :
    ∃ B : Mat 6 6, matMul B (leadingBlock gp) = identity 6 ∧ matMul (leadingBlock gp) B = identity 6 ∧
      G = matMul B gp := by
  obtain ⟨B, F, hFB, hG⟩ := eliminateColumns_eq_matMul h
  have hBA : matMul B (leadingBlock gp) = identity 6 := by
    rw [← leadingBlock_matMul, ← hG, systematic_of_eliminate h]
  have hA : leadingBlock gp = F := by
    rw [← identity_matMul (leadingBlock gp), ← hFB, matMul_assoc, hBA, matMul_identity]
  exact ⟨B, hBA, hA ▸ hFB, hG⟩

/-- A left inverse of the leading block gives the result of the elimination. -/
theorem eliminate_of_left_inverse {gp : GMat} {B : Mat 6 6} (hB : matMul B (leadingBlock gp) = identity 6) :
    eliminate gp = .ok (matMul B gp) :=
  eliminate_eq_of_systematic_matMul ((leadingBlock_matMul B gp).trans hB)

/-- Settles O27: the loop is a product with the inverse, and any product that reaches the identity block is its
result. -/
theorem eliminationResultIsUnique : Obligations.EliminationResultIsUnique :=
  ⟨fun _ _ h => ⟨systematic_of_eliminate h, exists_inverse_of_eliminate h⟩,
    fun _ _ => eliminate_eq_of_systematic_matMul⟩

/-! ### Failure (R65) -/

theorem exists_eliminate_eq_ok_iff (gp : GMat) :
    (∃ G, eliminate gp = .ok G) ↔ Invertible (leadingBlock gp) := by
  constructor
  · rintro ⟨G, h⟩
    obtain ⟨B, hBA, hAB, -⟩ := exists_inverse_of_eliminate h
    exact ⟨B, hBA, hAB⟩
  · rintro ⟨B, hBA, -⟩
    exact ⟨matMul B gp, eliminate_of_left_inverse hBA⟩

/-- ConstructionFatal is the only error of the elimination. -/
theorem eliminate_error {gp : GMat} {e : CodecError} (h : eliminate gp = .error e) : e = .constructionFatal :=
  (eliminateColumns_error (Nat.le_refl 6) h).1

theorem eliminate_eq_error_iff (gp : GMat) :
    eliminate gp = .error .constructionFatal ↔ ¬Invertible (leadingBlock gp) := by
  rw [← exists_eliminate_eq_ok_iff]
  cases h : eliminate gp with
  | error e => simp [eliminate_error h]
  | ok G => simp

theorem findPivot_eq_none_iff (M : GMat) (c : Fin 6) :
    findPivot M c = none ↔ ∀ i : Fin 6, c ≤ i → bit M i c = false :=
  ⟨findPivot_none, fun h => List.find?_eq_none.2 fun i _ => by simpa using h i⟩

theorem sixIndices_eq_take_append_cons (c : Fin 6) :
    sixIndices = sixIndices.take c ++ c :: sixIndices.drop (c + 1) := by
  revert c; decide

/-- A column without a pivot ends the elimination, whatever columns follow. -/
theorem eliminate_of_no_pivot {gp M : GMat} {c : Fin 6}
    (hM : eliminateColumns (sixIndices.take c) gp = .ok M) (hp : findPivot M c = none) :
    eliminate gp = .error .constructionFatal := by
  rw [eliminate, sixIndices_eq_take_append_cons c, eliminateColumns_append, hM]
  simp [eliminateColumns, eliminateColumn, hp]

/-- Settles O28: a success is an inverse of the leading block, and a loop that fails stops at a column without a
pivot. -/
theorem eliminationFailsExactlyWhenSingular : Obligations.EliminationFailsExactlyWhenSingular := by
  intro gp
  refine ⟨eliminate_eq_error_iff gp, fun _ => eliminate_error, fun h => ?_, ?_⟩
  · obtain ⟨-, c, M, hM, hp⟩ := eliminateColumns_error (Nat.le_refl 6) h
    exact ⟨c, M, hM, findPivot_none hp⟩
  · rintro ⟨c, M, hM, hp⟩
    exact eliminate_of_no_pivot hM ((findPivot_eq_none_iff M c).2 hp)

end Sys2Proof.Machine
end

section
/-! PROOFS. R66: the entries and columns of the derived `H`, and its product with `G`. -/

namespace Sys2Proof.Machine

/-- Column `j` of `H` in its `Pᵗ` part. -/
theorem column_deriveH_low (G : GMat) (j : Fin 6) : column (deriveH G) j = row (parityBlock G) j :=
  word_ext fun i => by rw [getLsbD_column, bit_deriveH_low, bit]

/-- Column `6 + t` of `H`, in its identity part. -/
theorem column_deriveH_high (G : GMat) (t : Fin 4) : column (deriveH G) (6 + t) = onehot 4 t :=
  word_ext fun i => by
    rw [getLsbD_column, bit_deriveH_high, getLsbD_onehot]
    simp [Fin.ext_iff, eq_comm]

/-- Settles O29: `H`'s two parts bit by bit, and R23's orthogonal rows are the entries of the product. -/
theorem derivedHHasParityRowsAndUnitsAsColumns : Obligations.DerivedHHasParityRowsAndUnitsAsColumns := by
  intro G
  refine ⟨fun i j => ?_, bit_deriveH_high G, column_deriveH_low G, column_deriveH_high G, fun hG => ?_⟩
  · rw [bit_deriveH_low, bit_parityBlock]
  · refine mat_ext fun i => word_ext fun j => ?_
    rw [row_matMul, getLsbD_vecMulMatrix_fin, column_transpose, dot_row_deriveH_row hG, row_ofRows,
      BitVec.getLsbD_zero]

end Sys2Proof.Machine
end

section
/-! PROOFS. R68: the corner cases of the elimination. -/

namespace Sys2Proof.Machine

/-! ### An identity leading block (R68 a) -/

/-- A 1 at row `c` is the first candidate in column `c`. -/
theorem findPivot_of_bit {M : GMat} {c : Fin 6} (h : bit M c c = true) : findPivot M c = some c := by
  have hbefore : (sixIndices.take c).find? (fun i => decide (c ≤ i) && bit M i c) = none := by
    rw [List.find?_eq_none]
    intro i hi
    have hic : i < c := (by decide : ∀ c : Fin 6, ∀ i ∈ sixIndices.take c, i < c) c i hi
    simp [hic]
  rw [findPivot, sixIndices_eq_take_append_cons c, List.find?_append, hbefore]
  simp [h]

theorem swapRows_self (M : GMat) (c : Fin 6) : swapRows M c c = M :=
  mat_ext fun i => by by_cases h : i = c <;> simp [swapRows, h]

theorem clearColumn_eq_self {M : GMat} {c : Fin 6} (h : ∀ i, i ≠ c → bit M i c = false) :
    clearColumn M c = M :=
  mat_ext fun i => by
    rw [clearColumn, row_ofRows, if_neg]
    rintro ⟨hi, hbit⟩
    simp [h i hi] at hbit

section systematic
variable {G : GMat} (hG : Systematic G) (c : Fin 6)
include hG

theorem findPivot_of_systematic : findPivot G c = some c :=
  findPivot_of_bit (by simp [bit_of_systematic hG])

theorem bit_of_systematic_ne (i : Fin 6) (hi : i ≠ c) : bit G i c = false := by
  rw [bit_of_systematic hG, decide_eq_false hi]

theorem clearColumn_of_systematic : clearColumn G c = G :=
  clearColumn_eq_self (bit_of_systematic_ne hG c)

theorem eliminateColumn_of_systematic : eliminateColumn G c = .ok G := by
  rw [eliminateColumn, findPivot_of_systematic hG c]
  simp [swapRows_self, clearColumn_of_systematic hG]

theorem eliminateColumns_of_systematic (cs : List (Fin 6)) : eliminateColumns cs G = .ok G := by
  induction cs with
  | nil => rfl
  | cons c cs ih => simp [eliminateColumns, eliminateColumn_of_systematic hG, ih]

theorem eliminate_of_systematic : eliminate G = .ok G :=
  eliminateColumns_of_systematic hG sixIndices

end systematic

/-! ### Singular leading blocks (R68 b) -/

theorem not_invertible_of_column_zero {A : Mat 6 6} {j : Fin 6} (h : column A j = 0#6) : ¬Invertible A := by
  rintro ⟨B, hBA, -⟩
  have hentry : (row (matMul B A) j).getLsbD j = false := by
    rw [row_matMul, getLsbD_vecMulMatrix_fin, h, dot_zero_right]
  rw [hBA, row_identity] at hentry
  simp at hentry

theorem not_invertible_of_rows_eq {A : Mat 6 6} {i k : Fin 6} (hik : i ≠ k) (h : row A i = row A k) :
    ¬Invertible A := by
  rintro ⟨B, -, hAB⟩
  have hrows : row (matMul A B) i = row (matMul A B) k := by rw [row_matMul, row_matMul, h]
  rw [hAB, row_identity, row_identity] at hrows
  have hbit := congrArg (BitVec.getLsbD · k) hrows
  exact hik (Fin.ext (by simpa using hbit))

/-! ### What the elimination reads (R68 c) -/

theorem bit_leadingBlock (G : GMat) (i j : Fin 6) : bit (leadingBlock G) i j = bit G i j := by
  rw [bit, row_leadingBlock]
  simp [bit]

theorem findPivot_congr {M N : GMat} (h : leadingBlock M = leadingBlock N) (c : Fin 6) :
    findPivot M c = findPivot N c := by
  unfold findPivot
  simp only [← bit_leadingBlock, h]

/-- Settles O31: an identity block is a fixed point of every pass, a zero column or two equal rows leave no inverse,
and one row transformation serves every matrix with the same leading block. -/
theorem eliminationCornerCases : Obligations.EliminationCornerCases := by
  refine ⟨fun gp h => ⟨fun c => ?_, eliminate_of_systematic h⟩, fun gp j h => ?_,
    fun gp i k hik h => ?_, fun M N c h => findPivot_congr h c, fun gp gp' G h hG => ?_⟩
  · exact ⟨findPivot_of_systematic h c, bit_of_systematic_ne h c, swapRows_self gp c,
      clearColumn_of_systematic h c⟩
  · exact (eliminate_eq_error_iff gp).2 (not_invertible_of_column_zero h)
  · exact (eliminate_eq_error_iff gp).2 (not_invertible_of_rows_eq hik h)
  · obtain ⟨E, hE, -, hGE⟩ := exists_inverse_of_eliminate hG
    exact ⟨E, hGE, eliminate_of_left_inverse (h ▸ hE)⟩

end Sys2Proof.Machine
end

section
/-! PROOFS. R67: what construction checks of `G_PRIME`, and what it does not. -/

namespace Sys2Proof.Machine

/-! ### READY, and the multi-match branch -/

theorem constructedCStatus_eq_ready_iff (gp : GMat) : constructedCStatus gp = .ready ↔ Inv gp := by
  rw [Inv, ← exists_eliminate_eq_ok_iff]
  exact ⟨exists_ok_of_ready, fun ⟨_, h⟩ => (constructed_of_ok h).1⟩

/-- Two or more matching columns leave no data (R87). -/
theorem decodeWord_multiMatch {H : HMat} {w : Codeword} (hp : overallOk w = false)
    (hs : syndrome H (coreOf w) ≠ 0#4) (hm : 2 ≤ popcount (matchMask H (syndrome H (coreOf w)))) :
    decodeWord H w = (none, .uncorrectable) := by
  rw [decodeWord_located hp hs, locate, if_neg (by omega)]

/-! ### A READY codec with a repeated column -/

/-- The `G_PRIME` of vector K5: a systematic matrix whose parity rows `P[0]` and `P[1]` are equal. -/
def gPrimeRepeated : GMat := #v[0x0C1, 0x0C2, 0x2C4, 0x308, 0x350, 0x3A0]

theorem constructed_gPrimeRepeated :
    constructedCStatus gPrimeRepeated = .ready ∧ constructedH gPrimeRepeated = deriveH gPrimeRepeated := by
  obtain ⟨hready, -, hH⟩ :=
    constructed_of_ok (eliminate_of_systematic (by decide : Systematic gPrimeRepeated))
  exact ⟨hready, hH⟩

theorem columns_deriveH_gPrimeRepeated :
    column (deriveH gPrimeRepeated) 0 = column (deriveH gPrimeRepeated) 1 := by decide

/-- Settles O30: a READY construction is an inverse of the leading block. In the witness the received word is the zero
codeword with bit 0 flipped, and the columns 0 and 1 both match its syndrome. -/
theorem constructionChecksInvertibilityOnly : Obligations.ConstructionChecksInvertibilityOnly := by
  refine ⟨constructedCStatus_eq_ready_iff, gPrimeRepeated, 0x001#11, ?_⟩
  obtain ⟨hready, hH⟩ := constructed_gPrimeRepeated
  rw [hH]
  have hodd : overallOk 0x001#11 = false := by decide
  have hsyndrome : syndrome (deriveH gPrimeRepeated) (coreOf 0x001#11) ≠ 0#4 := by decide
  have hmatches : 2 ≤ popcount
      (matchMask (deriveH gPrimeRepeated) (syndrome (deriveH gPrimeRepeated) (coreOf 0x001#11))) := by decide
  exact ⟨hready, fun hwf => hwf.2 0 1 (by decide) columns_deriveH_gPrimeRepeated, hmatches, hodd, hsyndrome,
    decodeWord_multiMatch hodd hsyndrome hmatches⟩

end Sys2Proof.Machine
end

section
/-! PROOFS. R71 to R76: ENCODE, its stages and its codewords. -/

namespace Sys2Proof.Machine

/-! ### The systematic core (R72) -/

/-- A column of `[A | B]` is a column of `A` or of `B`. -/
theorem column_beside {a b c : Nat} (A : Mat a b) (B : Mat a c) (j : Nat) :
    column (beside A B) j = if j < b then column A j else column B (j - b) :=
  word_ext fun i => by
    rw [getLsbD_column, bit, row_beside, BitVec.getLsbD_append]
    split <;> rw [getLsbD_column, bit]

theorem vecMulMatrix_beside {a b c : Nat} (v : BitVec a) (A : Mat a b) (B : Mat a c) :
    vecMulMatrix v (beside A B) = vecMulMatrix v B ++ vecMulMatrix v A :=
  word_ext fun j => by
    rw [getLsbD_vecMulMatrix_fin, column_beside, BitVec.getLsbD_append, getLsbD_vecMulMatrix, getLsbD_vecMulMatrix]
    split
    next h => simp [h]
    next h => simp [show j.val - b < c by omega]

theorem vecMulMatrix_identity {a : Nat} (v : BitVec a) : vecMulMatrix v (identity a) = v :=
  word_ext fun j => by
    rw [getLsbD_vecMulMatrix_fin, column_identity, dot_onehot_right]
    simp

/-- R21: a systematic `G` is `[I_6 | P]`. -/
theorem eq_beside_of_systematic {G : GMat} (hG : Systematic G) : G = beside (identity 6) (parityBlock G) :=
  mat_ext fun i => by rw [row_beside, ← hG, ← row_eq_append_blocks]

/-- R72: the core is the word, with `word · P` above it. -/
theorem systematicCore_eq_append {G : GMat} (hG : Systematic G) (word : DataWord) :
    systematicCore G word = (vecMulMatrix word (parityBlock G) ++ word : BitVec (4 + 6)) := by
  calc systematicCore G word = vecMulMatrix word (beside (identity 6) (parityBlock G)) := by
        rw [systematicCore, ← eq_beside_of_systematic hG]
    _ = (vecMulMatrix word (parityBlock G) ++ word : BitVec (4 + 6)) := by
        rw [vecMulMatrix_beside, vecMulMatrix_identity]

/-- An entry of a product as the XOR over the rows. -/
theorem dot_column_eq_foldl {a b : Nat} (v : BitVec a) (M : Mat a b) (j : Nat) :
    dot v (column M j) =
      (List.finRange a).foldl (fun acc (i : Fin a) => acc ^^ (v.getLsbD i && bit M i j)) false := by
  rw [dot_eq_foldl, ← List.map_coe_finRange_eq_range, List.foldl_map]
  simp only [getLsbD_column]

/-- Settles O40: the selected rows are `vecMulMatrix`'s second form, and for a systematic `G` the core falls into the
word and `word · P`. -/
theorem systematicCoreCarriesDataAndParity : Obligations.SystematicCoreCarriesDataAndParity := by
  refine ⟨fun G word => vecMulMatrix_eq_xorRows word G, fun G word hG => ?_⟩
  rw [systematicCore_eq_append hG]
  refine ⟨fun j => ?_, fun i => ?_⟩
  · rw [BitVec.getLsbD_append, if_pos j.isLt]
  · rw [BitVec.getLsbD_append, if_neg (by omega), Nat.add_sub_cancel_left, getLsbD_vecMulMatrix_fin,
      dot_column_eq_foldl]

/-! ### The overall parity bit and the codeword (R73) -/

/-- The overall bit stands above the core. -/
theorem injectParity_eq_append (core : CoreWord) :
    injectParity core = (BitVec.ofBool (parity core) ++ core : BitVec (1 + 10)) := rfl

theorem getLsbD_injectParity_overall (core : CoreWord) : (injectParity core).getLsbD 10 = parity core := by
  rw [injectParity, BitVec.getLsbD_cons, if_pos rfl]

/-- The overall bit makes the parity of the whole even. -/
@[simp] theorem parity_injectParity (core : CoreWord) : parity (injectParity core) = false := by
  rw [injectParity, parity_cons, Bool.xor_self]

/-- R73: overall bit, `word · P`, word. -/
theorem encodeWord_eq_append {G : GMat} (hG : Systematic G) (word : DataWord) :
    encodeWord G word =
      (BitVec.ofBool (parity (systematicCore G word)) ++
        (vecMulMatrix word (parityBlock G) ++ word : BitVec (4 + 6)) : BitVec (1 + (4 + 6))) := by
  rw [← systematicCore_eq_append hG]
  exact injectParity_eq_append _

/-- Settles O41: the codeword is the core with its parity above it, and a systematic core splits once more. -/
theorem codewordHasEvenParity : Obligations.CodewordHasEvenParity := by
  refine fun G word => ⟨coreOf_encodeWord G word, getLsbD_injectParity_overall _, parity_injectParity _,
    fun hG => ?_⟩
  rw [encodeWord_eq_append hG]
  constructor
  · rw [BitVec.extractLsb'_append_eq_of_add_le (by decide), BitVec.extractLsb'_append_eq_right]
  · rw [BitVec.extractLsb'_append_eq_of_add_le (by decide), BitVec.extractLsb'_append_eq_left]

/-! ### Linearity, and the zero word (R74, R75) -/

theorem systematicCore_xor (G : GMat) (a b : DataWord) :
    systematicCore G (a ^^^ b) = systematicCore G a ^^^ systematicCore G b :=
  vecMulMatrix_xor a b G

theorem injectParity_xor (x y : CoreWord) : injectParity (x ^^^ y) = injectParity x ^^^ injectParity y := by
  simp only [injectParity, BitVec.cons_xor_cons, parity_xor]

theorem encodeWord_xor (G : GMat) (a b : DataWord) :
    encodeWord G (a ^^^ b) = encodeWord G a ^^^ encodeWord G b := by
  simp only [encodeWord, systematicCore_xor, injectParity_xor]

/-- Settles O42: both stages are linear. -/
theorem encodingIsLinear : Obligations.EncodingIsLinear :=
  fun G a b => (encodeWord_xor G a b).symm

@[simp] theorem encodeWord_zero (G : GMat) : encodeWord G 0#6 = 0#11 := by
  rw [encodeWord, systematicCore, vecMulMatrix_zero]
  decide

/-- Settles O43: no row of `G` is selected, and the parity of the zero core is 0. -/
theorem zeroEncodesToZero : Obligations.ZeroEncodesToZero :=
  encodeWord_zero

/-! ### The kernel of `H` (R76) -/

/-- R80: the syndrome as the product with `Hᵗ`. -/
theorem vecMulMatrix_transpose_eq_syndrome (H : HMat) (x : CoreWord) :
    vecMulMatrix x (transpose H) = syndrome H x :=
  word_ext fun i => by rw [getLsbD_vecMulMatrix_fin, column_transpose, getLsbD_syndrome, dot_comm]

/-- Row `i` of `H` meets bit `i` of `word · P` in its identity part, and in its `Pᵗ` part the sum that makes this
bit. -/
theorem dot_row_deriveH_systematicCore {G : GMat} (hG : Systematic G) (word : DataWord) (i : Fin 4) :
    dot (row (deriveH G) i) (systematicCore G word) = false := by
  rw [row_deriveH, systematicCore_eq_append hG, dot_append, dot_onehot_left, getLsbD_vecMulMatrix_fin, dot_comm word]
  simp

theorem syndrome_systematicCore {G : GMat} (hG : Systematic G) (word : DataWord) :
    syndrome (deriveH G) (systematicCore G word) = 0#4 :=
  word_ext fun i => by rw [getLsbD_syndrome, dot_row_deriveH_systematicCore hG, BitVec.getLsbD_zero]

/-- A codeword has no syndrome: its overall bit does not enter it. -/
theorem syndrome_coreOf_encodeWord {G : GMat} (hG : Systematic G) (word : DataWord) :
    syndrome (deriveH G) (coreOf (encodeWord G word)) = 0#4 := by
  rw [coreOf_encodeWord, syndrome_systematicCore hG]

theorem overallOk_encodeWord (G : GMat) (word : DataWord) : overallOk (encodeWord G word) = true :=
  overallOk_injectParity _

theorem dataOf_systematicCore {G : GMat} (hG : Systematic G) (word : DataWord) :
    dataOf (systematicCore G word) = word := by
  rw [systematicCore_eq_append hG, dataOf, BitVec.extractLsb'_append_eq_right]

/-- R76: with the `H` derived from a systematic `G`, a codeword decodes to its word. -/
theorem decodeWord_encodeWord {G : GMat} (hG : Systematic G) (word : DataWord) :
    decodeWord (deriveH G) (encodeWord G word) = (some word, .valid) := by
  rw [decodeWord_valid (overallOk_encodeWord G word) (syndrome_coreOf_encodeWord hG word), coreOf_encodeWord,
    dataOf_systematicCore hG]

/-- Settles O44: elimination gives a systematic `G`, whose codewords have no syndrome and pass the overall check. -/
theorem codewordsLieInTheKernelOfH : Obligations.CodewordsLieInTheKernelOfH := by
  intro gp G word h
  have hG : Systematic G := systematic_of_eliminate h
  refine ⟨?_, syndrome_coreOf_encodeWord hG word, overallOk_encodeWord G word, decodeWord_encodeWord hG word⟩
  rw [vecMulMatrix_transpose_eq_syndrome]
  exact syndrome_coreOf_encodeWord hG word

/-! ### ENCODE's answer (R71) -/

section exec
variable {s : State}

theorem exec_encode_failed (h : s.cstatus = .failed) (rsvd : BitVec 5) (data : DataWord) :
    exec (.encode rsvd data) s = .next { s with responses := s.responses ++ [0x4000#16] } := by
  rw [exec_eq_respond, answerOf_failed h, State.respond, responseWord_constructionFatal]

theorem exec_encode_reserved (h : s.cstatus = .ready) {rsvd : BitVec 5} (hr : rsvd ≠ 0#5) (data : DataWord) :
    exec (.encode rsvd data) s = .next { s with responses := s.responses ++ [0x2000#16] } := by
  rw [exec_eq_respond, answerOf, encodeResponse_reserved h hr, State.respond, responseWord_invalidLength]

theorem exec_encode_ready (h : s.cstatus = .ready) (data : DataWord) :
    exec (.encode 0#5 data) s =
      .next { s with responses := s.responses ++ [0#5 ++ encodeWord s.gRow data] } := by
  rw [exec_eq_respond, answerOf, encodeResponse_ready h, State.respond, responseWord_codeword]

end exec

/-- A one-hot word selects one row of `G`. -/
theorem encodeWord_onehot (G : GMat) (j : Fin 6) :
    encodeWord G (onehot 6 j) = BitVec.cons (parity (row G j)) (row G j) := by
  rw [encodeWord, systematicCore, vecMulMatrix_onehot, injectParity]

/-- The word `(0,1,1,0,1,1)` selects the rows 1, 2, 4 and 5. -/
theorem vecMulMatrix_scenarioWord {b : Nat} (M : Mat 6 b) :
    vecMulMatrix 0b110110#6 M = row M 1 ^^^ row M 2 ^^^ row M 4 ^^^ row M 5 := by
  have hword : 0b110110#6 = onehot 6 (1 : Fin 6) ^^^ onehot 6 (2 : Fin 6) ^^^ onehot 6 (4 : Fin 6) ^^^
      onehot 6 (5 : Fin 6) := by decide
  rw [hword]
  simp only [vecMulMatrix_xor, vecMulMatrix_onehot]

/-- R17: under the constraint of scenario 1, `word · P` is `(1,1,1,1)`. -/
theorem encodeWord_of_scenarioOne {G : GMat} (hG : Systematic G) (h : ScenarioOne (parityBlock G)) :
    encodeWord G 0b110110#6 = 0x3F6#11 := by
  have hparity : vecMulMatrix 0b110110#6 (parityBlock G) = 0b1111#4 := by rw [vecMulMatrix_scenarioWord, h]
  rw [encodeWord, systematicCore_eq_append hG, hparity]
  decide

/-- Settles O7: the responses in the order of R96, then the codewords of the corner cases. -/
theorem encodeAnswersTheCodeword : Obligations.EncodeAnswersTheCodeword := by
  refine ⟨fun s data h => exec_encode_ready h data, fun s rsvd data h => exec_encode_failed h rsvd data,
    fun s rsvd data h hr => exec_encode_reserved h hr data, fun s h => ?_, fun s j h => ?_, fun s h hG hP => ?_⟩
  · rw [exec_encode_ready h, encodeWord_zero]
    rfl
  · rw [exec_encode_ready h, encodeWord_onehot]
  · rw [exec_encode_ready h, encodeWord_of_scenarioOne hG hP]
    rfl

end Sys2Proof.Machine
end

section
/-! PROOFS. R79 to R81: the overall check and the syndrome. -/

namespace Sys2Proof.Machine

/-! ### The overall check (R79) -/

theorem overallOk_eq_true_iff (w : Codeword) : overallOk w = true ↔ parity w = false := by
  rw [overallOk, Bool.not_eq_true']

theorem overallOk_eq_false_iff (w : Codeword) : overallOk w = false ↔ parity w = true := by
  rw [overallOk, Bool.not_eq_false']

/-- A codeword passes the check, so only the flipped bits enter it. -/
theorem overallOk_encodeWord_xor (G : GMat) (word : DataWord) (e : Codeword) :
    overallOk (encodeWord G word ^^^ e) = overallOk e := by
  rw [overallOk_xor, overallOk_encodeWord, Bool.true_beq]

theorem overallOk_eq_false_iff_popcount (e : Codeword) : overallOk e = false ↔ popcount e % 2 = 1 := by
  rw [overallOk_eq_false_iff, parity_eq_popcount_odd, decide_eq_true_iff]

theorem overallOk_eq_true_iff_popcount (e : Codeword) : overallOk e = true ↔ popcount e % 2 = 0 := by
  rw [← Bool.not_eq_false, overallOk_eq_false_iff_popcount, Nat.mod_two_not_eq_one]

/-- Settles O45: the check of a codeword with errors is that of the errors. -/
theorem overallCheckCountsFlippedBits : Obligations.OverallCheckCountsFlippedBits := by
  refine ⟨overallOk_eq_true_iff, fun G word e => ?_⟩
  rw [overallOk_encodeWord_xor, overallOk_eq_false_iff_popcount]

/-! ### The syndrome as a product, and of one flipped bit (R80) -/

/-- A position past the end is no bit of the word. -/
theorem onehot_eq_zero {L j : Nat} (h : L ≤ j) : onehot L j = 0#L :=
  word_ext fun i => by
    rw [getLsbD_onehot]
    simp [show j ≠ i by omega]

/-- A flipped bit of the received word is a flipped bit of the core; the overall bit is none of the core's. -/
theorem coreOf_onehot (i : Nat) : coreOf (onehot 11 i) = onehot 10 i :=
  word_ext fun k => by
    rw [getLsbD_coreOf, getLsbD_onehot, getLsbD_onehot]
    simp [show k.val < 11 by omega]

theorem syndrome_flipOverall (H : HMat) (w : Codeword) :
    syndrome H (coreOf (w ^^^ onehot 11 10)) = syndrome H (coreOf w) := by
  rw [coreOf_xor, coreOf_onehot, onehot_eq_zero le_rfl, BitVec.xor_zero]

/-- Settles O46: the bits of the product with `Hᵗ`; the product with `H` itself takes vectors of length 4 only. -/
theorem syndromeIsHTimesTheCore : Obligations.SyndromeIsHTimesTheCore := by
  refine ⟨fun H x i => ?_, fun H x => (vecMulMatrix_transpose_eq_syndrome H x).symm, syndrome_flipOverall,
    fun H x => anyVecMulMatrix_of_len_ne (show 10 ≠ 4 by decide)⟩
  rw [getLsbD_syndrome, dot]

/-! ### The syndrome of an error pattern (R81) -/

theorem xorColumns_eq_xorRows_transpose (H : HMat) (e : CoreWord) : xorColumns H e = xorRows (transpose H) e := by
  rw [xorColumns, xorRows, ← List.map_coe_finRange_eq_range, List.foldl_map]
  simp only [row_transpose]

theorem syndrome_eq_xorColumns (H : HMat) (e : CoreWord) : syndrome H e = xorColumns H e := by
  rw [← vecMulMatrix_transpose_eq_syndrome, vecMulMatrix_eq_xorRows, xorColumns_eq_xorRows_transpose]

theorem syndrome_encodeWord_xor {G : GMat} (hG : Systematic G) (word : DataWord) (e : Codeword) :
    syndrome (deriveH G) (coreOf (encodeWord G word ^^^ e)) = syndrome (deriveH G) (coreOf e) := by
  rw [coreOf_xor, syndrome_xor, syndrome_coreOf_encodeWord hG, BitVec.zero_xor]

/-- The syndrome of a core with parity bits `p` is the difference between `p` and the parity `d · P` of its data. -/
theorem syndrome_append (G : GMat) (p : BitVec 4) (d : DataWord) :
    syndrome (deriveH G) (p ++ d : BitVec (4 + 6)) = p ^^^ vecMulMatrix d (parityBlock G) :=
  word_ext fun i => by
    rw [getLsbD_syndrome, row_deriveH, dot_append, dot_onehot_left, BitVec.getLsbD_xor, getLsbD_vecMulMatrix_fin,
      dot_comm d]
    simp

theorem coreWord_eq_append (x : CoreWord) : x = (x.extractLsb' 6 4 ++ dataOf x : BitVec (4 + 6)) := by
  rw [dataOf, BitVec.extractLsb'_append_extractLsb'_eq_extractLsb' (by rfl)]
  simp

/-- R81: the kernel of `H` is the set of systematic cores. -/
theorem syndrome_eq_zero_iff_exists_word {G : GMat} (hG : Systematic G) (x : CoreWord) :
    syndrome (deriveH G) x = 0#4 ↔ ∃ word, systematicCore G word = x := by
  constructor
  · intro hx
    rw [coreWord_eq_append x, syndrome_append, BitVec.xor_eq_zero_iff] at hx
    refine ⟨dataOf x, ?_⟩
    rw [systematicCore_eq_append hG, ← hx, ← coreWord_eq_append]
  · rintro ⟨word, rfl⟩
    exact syndrome_systematicCore hG word

/-- Settles O47: both checks are linear and a codeword passes them, so only the error pattern enters them. -/
theorem syndromeDependsOnTheErrorsOnly : Obligations.SyndromeDependsOnTheErrorsOnly := by
  refine fun G hG => ⟨fun word e => ⟨syndrome_encodeWord_xor hG word e, syndrome_eq_xorColumns _ _, ?_⟩,
    syndrome_eq_zero_iff_exists_word hG⟩
  rw [overallOk_encodeWord_xor, overallOk_eq_true_iff_popcount]

end Sys2Proof.Machine
end

section
/-! PROOFS. R84 to R87: the locator. -/

namespace Sys2Proof.Machine

/-! ### The match mask (R84) -/

/-- A row mask, complemented where the syndrome bit is 0, marks the columns that agree with this bit. -/
theorem getLsbD_rowMask {L : Nat} (r : BitVec L) (b : Bit) (j : Fin L) :
    (if b then r else ~~~r).getLsbD j = true ↔ r.getLsbD j = b := by
  cases b <;> simp

theorem getLsbD_matchMask_iff_bits (H : HMat) (s : Syndrome) (j : Fin 10) :
    (matchMask H s).getLsbD j = true ↔ ∀ i : Fin 4, bit H i j = s.getLsbD i := by
  simp only [matchMask, BitVec.getLsbD_and, Bool.and_eq_true, getLsbD_rowMask, BitVec.getLsbD_allOnes, j.isLt,
    decide_true, true_and, bit]
  simp [Fin.forall_fin_succ, and_assoc]

theorem getLsbD_matchMask (H : HMat) (s : Syndrome) (j : Fin 10) :
    (matchMask H s).getLsbD j = true ↔ column H j = s := by
  rw [getLsbD_matchMask_iff_bits, column_eq_iff]

/-- Settles O48: the AND over the row masks is the agreement in every row. -/
theorem matchMaskMarksEqualColumns : Obligations.MatchMaskMarksEqualColumns :=
  fun H s j => ⟨getLsbD_matchMask_iff_bits H s j, getLsbD_matchMask H s j⟩

/-! ### Counting matches (R85) -/

/-- `popcount` (R59) as the size of a set of positions. -/
theorem popcount_eq_card {L : Nat} (v : BitVec L) :
    popcount v = (Finset.univ.filter fun i : Fin L => v.getLsbD i = true).card := by
  have hsum : ∀ n, popcountUpTo v n = ∑ i ∈ Finset.range n, (v.getLsbD i).toNat := by
    intro n
    induction n with
    | zero => rfl
    | succ n ih => rw [popcountUpTo, ih, Finset.sum_range_succ, Nat.add_comm]
  rw [popcount, hsum, Finset.card_filter, ← Fin.sum_univ_eq_sum_range fun i => (v.getLsbD i).toNat]
  exact Finset.sum_congr rfl fun i _ => by cases v.getLsbD i <;> rfl

/-- The columns of `H` that equal the syndrome. -/
def matchingColumns (H : HMat) (s : Syndrome) : Finset (Fin 10) :=
  Finset.univ.filter fun j => column H j = s

theorem mem_matchingColumns {H : HMat} {s : Syndrome} {j : Fin 10} : j ∈ matchingColumns H s ↔ column H j = s := by
  simp [matchingColumns]

theorem popcount_matchMask (H : HMat) (s : Syndrome) : popcount (matchMask H s) = (matchingColumns H s).card := by
  simp only [popcount_eq_card, getLsbD_matchMask, matchingColumns]

theorem popcount_matchMask_eq_zero_iff (H : HMat) (s : Syndrome) :
    popcount (matchMask H s) = 0 ↔ ∀ j : Fin 10, column H j ≠ s := by
  rw [popcount_matchMask, Finset.card_eq_zero, Finset.eq_empty_iff_forall_notMem]
  simp only [mem_matchingColumns, ne_eq]

theorem popcount_matchMask_eq_one_iff (H : HMat) (s : Syndrome) :
    popcount (matchMask H s) = 1 ↔ ∃ j : Fin 10, column H j = s ∧ ∀ k : Fin 10, column H k = s → k = j := by
  rw [popcount_matchMask, Finset.card_eq_one_iff_existsUnique]
  simp only [mem_matchingColumns, ExistsUnique]

theorem two_le_popcount_matchMask_iff (H : HMat) (s : Syndrome) :
    2 ≤ popcount (matchMask H s) ↔ ∃ j k : Fin 10, j ≠ k ∧ column H j = s ∧ column H k = s := by
  rw [popcount_matchMask, Nat.succ_le_iff, Finset.one_lt_card]
  simp only [mem_matchingColumns]
  exact ⟨fun ⟨j, hj, k, hk, hne⟩ => ⟨j, k, hne, hj, hk⟩, fun ⟨j, k, hne, hj, hk⟩ => ⟨j, hj, k, hk, hne⟩⟩

theorem matchMask_eq_onehot {H : HMat} {s : Syndrome} {j : Fin 10} (hone : popcount (matchMask H s) = 1)
    (hj : column H j = s) : matchMask H s = onehot 10 j := by
  obtain ⟨l, -, hl⟩ := (popcount_matchMask_eq_one_iff H s).mp hone
  refine word_ext fun k => ?_
  rw [Bool.eq_iff_iff, getLsbD_matchMask, getLsbD_onehot]
  simp only [k.isLt, decide_true, Bool.true_and, decide_eq_true_eq, ← Fin.ext_iff]
  constructor
  · intro hk
    rw [hl j hj, hl k hk]
  · rintro rfl
    exact hj

/-- Settles O49: the mask's population count is the number of matching columns. -/
theorem uniqueMatchIsAOneHotMask : Obligations.UniqueMatchIsAOneHotMask :=
  fun H s => ⟨popcount_matchMask_eq_zero_iff H s, popcount_matchMask_eq_one_iff H s,
    two_le_popcount_matchMask_iff H s, fun _ => matchMask_eq_onehot⟩

/-! ### The correction mux (R86) -/

theorem dataOf_onehot (j : Nat) : dataOf (onehot 10 j) = onehot 6 j :=
  word_ext fun i => by
    rw [getLsbD_dataOf, getLsbD_onehot, getLsbD_onehot]
    simp [show i.val < 10 by omega]

theorem locate_of_match {H : HMat} {x : CoreWord} {s : Syndrome} {j : Fin 10}
    (hone : popcount (matchMask H s) = 1) (hj : column H j = s) :
    locate H x s = (some (dataOf (x ^^^ onehot 10 j)), .corrected) := by
  rw [locate, if_pos hone, matchMask_eq_onehot hone hj]

/-- Settles O50: the mask is one-hot at the match, and only the bits 0 to 5 of it reach the data. -/
theorem correctionFlipsTheLocatedBit : Obligations.CorrectionFlipsTheLocatedBit := by
  intro H x s j hone hj
  have hlocate := locate_of_match (x := x) hone hj
  have hdata : dataOf (x ^^^ onehot 10 j) = dataOf x ^^^ onehot 6 j := by rw [dataOf_xor, dataOf_onehot]
  refine ⟨hlocate, fun _ => hdata ▸ hlocate, fun hhigh => ?_⟩
  rw [hlocate, hdata, onehot_eq_zero hhigh, BitVec.xor_zero]

/-! ### Locator failure (R87) -/

theorem locate_of_popcount_ne_one {H : HMat} {s : Syndrome} (x : CoreWord) (h : popcount (matchMask H s) ≠ 1) :
    locate H x s = (none, .uncorrectable) := by
  rw [locate, if_neg h]

/-- The syndromes that are zero or a column of `H`. -/
def usedSyndromes (H : HMat) : Finset Syndrome :=
  insert 0#4 (Finset.univ.image fun j : Fin 10 => column H j)

theorem notMem_usedSyndromes {H : HMat} {s : Syndrome} :
    s ∉ usedSyndromes H ↔ s ≠ 0#4 ∧ ∀ j : Fin 10, column H j ≠ s := by
  simp [usedSyndromes]

theorem card_usedSyndromes_le (H : HMat) : (usedSyndromes H).card ≤ 11 :=
  (Finset.card_insert_le _ _).trans (Nat.succ_le_succ Finset.card_image_le)

/-- At most 11 of the 16 syndromes are used. -/
theorem exists_five_unmatched (H : HMat) : ∃ L : List Syndrome, L.Nodup ∧ L.length = 5 ∧
    ∀ s ∈ L, s ≠ 0#4 ∧ ∀ j : Fin 10, column H j ≠ s := by
  have hfree : 5 ≤ (usedSyndromes H)ᶜ.card := by
    have hused := card_usedSyndromes_le H
    rw [Finset.card_compl, show Fintype.card Syndrome = 16 by rfl]
    omega
  obtain ⟨T, hT, hcard⟩ := Finset.exists_subset_card_eq hfree
  refine ⟨T.toList, T.nodup_toList, by rw [Finset.length_toList, hcard], fun s hs => ?_⟩
  exact notMem_usedSyndromes.mp (Finset.mem_compl.mp (hT (Finset.mem_toList.mp hs)))

theorem exists_unmatched (H : HMat) : ∃ s : Syndrome, s ≠ 0#4 ∧ ∀ j : Fin 10, column H j ≠ s := by
  obtain ⟨L, -, hlen, hL⟩ := exists_five_unmatched H
  obtain ⟨s, hs⟩ := List.exists_mem_of_length_pos (show 0 < L.length by omega)
  exact ⟨s, hL s hs⟩

theorem matchMask_eq_zero {H : HMat} {s : Syndrome} (h : ∀ j : Fin 10, column H j ≠ s) : matchMask H s = 0#10 :=
  word_ext fun j => by
    rw [BitVec.getLsbD_zero, ← Bool.not_eq_true, getLsbD_matchMask]
    exact h j

/-- A received word with an odd number of 1 bits and the given syndrome: the syndrome stands in the parity bits of
the core. -/
theorem exists_odd_word_of_syndrome (G : GMat) (s : Syndrome) :
    ∃ w : Codeword, overallOk w = false ∧ syndrome (deriveH G) (coreOf w) = s := by
  refine ⟨injectParity (s ++ 0#6 : BitVec (4 + 6)) ^^^ onehot 11 10, ?_, ?_⟩
  · rw [overallOk_xor, overallOk_injectParity]
    decide
  · rw [syndrome_flipOverall, coreOf_injectParity, syndrome_append, vecMulMatrix_zero, BitVec.xor_zero]

/-- Settles O51: at most 11 syndromes are zero or a column, and a derived `H` has received words of every syndrome. -/
theorem locatorFailureIsUncorrectable : Obligations.LocatorFailureIsUncorrectable := by
  refine ⟨fun H x s => locate_of_popcount_ne_one x, exists_five_unmatched, fun G _ => ?_, fun H s hm hwf => ?_⟩
  · obtain ⟨s, hs, hunmatched⟩ := exists_unmatched (deriveH G)
    obtain ⟨w, hodd, rfl⟩ := exists_odd_word_of_syndrome G s
    have hmask := matchMask_eq_zero hunmatched
    refine ⟨w, hodd, hs, hmask, ?_⟩
    rw [decodeWord_located hodd hs, locate_of_popcount_ne_one _ (by rw [hmask]; decide)]
  · obtain ⟨j, k, hne, hj, hk⟩ := (two_le_popcount_matchMask_iff H s).mp hm
    exact hwf.2 j k hne (hj.trans hk.symm)

end Sys2Proof.Machine
end

section
/-! PROOFS. R82, R89: DECODE's answers, and the guarantees of a well-formed code. -/

namespace Sys2Proof.Machine

/-! ### DECODE's answer by error class (R82) -/

theorem exec_decode_ready {s : State} (h : s.cstatus = .ready) {cw : Codeword} {d : Option DataWord} {st : Status}
    (hd : decodeWord s.hRow cw = (d, st)) :
    exec (.decode cw) s = .next { s with responses := s.responses ++ [responseWord (.decoded d st)] } := by
  rw [exec_eq_respond, answerOf, decodeResponse_ready h, hd, State.respond]

theorem syndrome_eq_zero_iff (H : HMat) (x : CoreWord) : syndrome H x = 0#4 ↔ ∀ i, dot (row H i) x = false := by
  simp only [← getLsbD_syndrome]
  exact ⟨fun h i => by rw [h, BitVec.getLsbD_zero], fun h => word_ext fun i => by rw [h i, BitVec.getLsbD_zero]⟩

/-- A column matches when it agrees with the syndrome in every row. -/
theorem column_eq_syndrome_iff (H : HMat) (x : CoreWord) (j : Fin 10) :
    column H j = syndrome H x ↔ ∀ i : Fin 4, bit H i j = dot (row H i) x := by
  simp only [column_eq_iff, getLsbD_syndrome]

/-- Settles O9: the four classes of R82, the last of which asks the locator for its matches. -/
theorem decodeAnswersByErrorClass : Obligations.DecodeAnswersByErrorClass := by
  intro s cw hready
  have hcore : cw.extractLsb' 0 10 = coreOf cw := rfl
  have hdata (x : CoreWord) : x.extractLsb' 0 6 = dataOf x := rfl
  simp only [hcore, hdata, ← syndrome_eq_zero_iff, ← column_eq_syndrome_iff, ← overallOk_eq_true_iff,
    ← overallOk_eq_false_iff]
  refine ⟨fun hp hs => ?_, fun hp hs => ?_, fun hp hs => ?_, fun j hp hs hj huniq => ?_, fun hp hs hno => ?_⟩
  · rw [exec_decode_ready hready (decodeWord_valid hp hs), responseWord_valid]
  · rw [exec_decode_ready hready (decodeWord_overallFlipped hp hs), responseWord_corrected]
  · rw [exec_decode_ready hready (decodeWord_even hp hs), responseWord_uncorrectable]
  · have hone := (popcount_matchMask_eq_one_iff _ _).mpr ⟨j, hj, huniq⟩
    rw [exec_decode_ready hready ((decodeWord_located hp hs).trans (locate_of_match hone hj)), responseWord_corrected]
  · have hne := mt (popcount_matchMask_eq_one_iff _ _).mp hno
    rw [exec_decode_ready hready ((decodeWord_located hp hs).trans (locate_of_popcount_ne_one _ hne)),
      responseWord_uncorrectable]

/-! ### The syndromes of single errors (R17, R81)

Position 10, the overall bit, has the zero syndrome, which is also `column H 10`, a column past the last. So
WF_SECDED says that the 11 positions have 11 different syndromes. -/

theorem syndrome_coreOf_onehot (H : HMat) (i : Fin 11) : syndrome H (coreOf (onehot 11 i)) = column H i := by
  refine word_ext fun k => ?_
  rw [coreOf_onehot, getLsbD_syndrome, dot_onehot_right, getLsbD_column, bit]
  by_cases h : i.val < 10
  · simp [h]
  · simp [h, BitVec.getLsbD_of_ge _ _ (Nat.le_of_not_lt h)]

theorem column_last (H : HMat) : column H 10 = 0#4 :=
  word_ext fun k => by simp [bit]

/-- WF_SECDED as one injectivity: a nonzero column is one that differs from the column past the last. -/
theorem wfSecded_iff_injective (H : HMat) :
    WfSecded H ↔ Function.Injective fun i : Fin 11 => column H i := by
  constructor
  · rintro ⟨hnonzero, hdistinct⟩ i j hij
    induction i using Fin.lastCases with
    | last =>
      induction j using Fin.lastCases with
      | last => rfl
      | cast j => exact absurd (hij.symm.trans (column_last H)) (hnonzero j)
    | cast i =>
      induction j using Fin.lastCases with
      | last => exact absurd (hij.trans (column_last H)) (hnonzero i)
      | cast j => exact congrArg Fin.castSucc (by_contra fun hne => hdistinct i j hne hij)
  · intro hinj
    refine ⟨fun j hj => ?_, fun j k hne hjk => hne (Fin.castSucc_injective 10 (hinj hjk))⟩
    exact Fin.castSucc_ne_last j (hinj (hj.trans (column_last H).symm))

/-! ### The guarantees (R89) -/

theorem overallOk_onehot : ∀ i : Fin 11, overallOk (onehot 11 i) = false := by decide

theorem overallOk_single_error (G : GMat) (word : DataWord) (i : Fin 11) :
    overallOk (encodeWord G word ^^^ onehot 11 i) = false := by
  rw [overallOk_encodeWord_xor, overallOk_onehot]

/-- Two errors pass the overall check, and leave no syndrome exactly when their two columns are equal. -/
theorem decodeWord_two_errors {G : GMat} (hG : Systematic G) (word : DataWord) (i j : Fin 11) :
    decodeWord (deriveH G) (encodeWord G word ^^^ onehot 11 i ^^^ onehot 11 j) = (none, .uncorrectable) ↔
      column (deriveH G) i ≠ column (deriveH G) j := by
  have hp : overallOk (encodeWord G word ^^^ onehot 11 i ^^^ onehot 11 j) = true := by
    rw [overallOk_xor, overallOk_single_error, overallOk_onehot]
    rfl
  have hs : syndrome (deriveH G) (coreOf (encodeWord G word ^^^ onehot 11 i ^^^ onehot 11 j)) =
      column (deriveH G) i ^^^ column (deriveH G) j := by
    rw [BitVec.xor_assoc, syndrome_encodeWord_xor hG, coreOf_xor, syndrome_xor, syndrome_coreOf_onehot,
      syndrome_coreOf_onehot]
  have hs0 := hs ▸ (BitVec.xor_eq_zero_iff (x := column (deriveH G) i) (y := column (deriveH G) j))
  by_cases heq : column (deriveH G) i = column (deriveH G) j
  · simp [decodeWord_valid hp (hs0.mpr heq), heq]
  · simp [decodeWord_even hp (mt hs0.mp heq), heq]

/-- R89: two errors are detected at all pairs exactly when no two of the 11 syndromes are equal. -/
theorem doubleBitDetection_iff {G : GMat} (hG : Systematic G) :
    DoubleBitDetection G (deriveH G) ↔ WfSecded (deriveH G) := by
  rw [wfSecded_iff_injective]
  simp only [DoubleBitDetection, decodeWord_two_errors hG]
  exact ⟨fun h i j hij => by_contra fun hne => h 0#6 i j hne hij, fun hinj _ _ _ hne => hinj.ne hne⟩

/-- An error at the overall bit leaves no syndrome, and the core as it was. -/
theorem decodeWord_overall_error {G : GMat} (hG : Systematic G) (word : DataWord) :
    decodeWord (deriveH G) (encodeWord G word ^^^ onehot 11 10) = (some word, .corrected) := by
  have hcore : coreOf (encodeWord G word ^^^ onehot 11 10) = systematicCore G word := by
    rw [coreOf_xor, coreOf_encodeWord, coreOf_onehot, onehot_eq_zero le_rfl, BitVec.xor_zero]
  have hp : overallOk (encodeWord G word ^^^ onehot 11 10) = false := overallOk_single_error G word 10
  rw [decodeWord_overallFlipped hp (hcore ▸ syndrome_systematicCore hG word), hcore, dataOf_systematicCore hG]

/-- An error at a core bit has this bit's column as its syndrome, which in a well-formed code matches nowhere else. -/
theorem decodeWord_core_error {G : GMat} (hG : Systematic G) (hwf : WfSecded (deriveH G)) (word : DataWord)
    (j : Fin 10) : decodeWord (deriveH G) (encodeWord G word ^^^ onehot 11 j) = (some word, .corrected) := by
  obtain ⟨hnonzero, hdistinct⟩ := hwf
  have hp : overallOk (encodeWord G word ^^^ onehot 11 j) = false := overallOk_single_error G word j.castSucc
  have hs : syndrome (deriveH G) (coreOf (encodeWord G word ^^^ onehot 11 j)) = column (deriveH G) j := by
    rw [syndrome_encodeWord_xor hG, coreOf_onehot, syndrome_onehot]
  have hone : popcount (matchMask (deriveH G) (column (deriveH G) j)) = 1 :=
    (popcount_matchMask_eq_one_iff _ _).mpr ⟨j, rfl, fun k hk => by_contra fun hne => hdistinct k j hne hk⟩
  rw [decodeWord_located hp (hs ▸ hnonzero j), hs, locate_of_match hone rfl, coreOf_xor, coreOf_encodeWord,
    coreOf_onehot, BitVec.xor_assoc, BitVec.xor_self, BitVec.xor_zero, dataOf_systematicCore hG]

theorem singleBitCorrection_of_wfSecded {G : GMat} (hG : Systematic G) (hwf : WfSecded (deriveH G)) :
    SingleBitCorrection G (deriveH G) := by
  intro word i
  induction i using Fin.lastCases with
  | last => exact decodeWord_overall_error hG word
  | cast j => exact decodeWord_core_error hG hwf word j

/-- Settles O53: double-bit detection alone is WF_SECDED, from which single-bit correction follows. -/
theorem secdedGuaranteesHoldExactlyWhenWellFormed : Obligations.SecdedGuaranteesHoldExactlyWhenWellFormed := by
  intro gp G h
  have hG : Systematic G := systematic_of_eliminate h
  refine ⟨decodeWord_encodeWord hG, fun ⟨_, hdouble⟩ => (doubleBitDetection_iff hG).mp hdouble, fun hwf => ?_⟩
  exact ⟨singleBitCorrection_of_wfSecded hG hwf, (doubleBitDetection_iff hG).mpr hwf⟩

end Sys2Proof.Machine
end

section
/-! PROOFS. R91 to R96: which error is raised when, what its response is, and what it leaves unchanged. -/

namespace Sys2Proof.Machine

/-! ### The errors a request can get (R96) -/

section answerOf
variable {s : State} {i : Instr}

/-- The length check of a READY block fails on a reserved field that is not zero (R49). -/
theorem answerOf_of_not_wellFormed (h : s.cstatus = .ready) (hi : i.wellFormed = false) :
    answerOf s i = .error .invalidLength := by
  cases i with
  | encode rsvd data =>
    have hr : rsvd ≠ 0#5 := by simpa [Instr.wellFormed] using hi
    exact encodeResponse_reserved h hr data
  | decode cw => simp [Instr.wellFormed] at hi

/-- A READY block has no other error. -/
theorem answerOf_ne_error_of_wellFormed (h : s.cstatus = .ready) (hi : i.wellFormed = true) (e : CodecError) :
    answerOf s i ≠ .error e := by
  cases i with
  | encode rsvd data =>
    obtain rfl : rsvd = 0#5 := by simpa [Instr.wellFormed] using hi
    rw [answerOf, encodeResponse_ready h]
    nofun
  | decode cw =>
    rw [answerOf, decodeResponse_ready h]
    nofun

/-- Each error with the condition that raises it, the conditions exclusive by `CSTATUS`. -/
theorem answerOf_eq_error_iff {e : CodecError} :
    answerOf s i = .error e ↔
      (s.cstatus = .failed ∧ e = .constructionFatal) ∨
      (s.cstatus = .ready ∧ i.wellFormed = false ∧ e = .invalidLength) := by
  cases h : s.cstatus with
  | failed => simp [answerOf_failed h, eq_comm (a := e)]
  | ready =>
    cases hi : i.wellFormed with
    | false => simp [answerOf_of_not_wellFormed h hi, eq_comm (a := e)]
    | true => simp [answerOf_ne_error_of_wellFormed h hi e]

end answerOf

/-! ### InvalidLength (R92) -/

theorem answerOf_eq_invalidLength_iff {s : State} {i : Instr} :
    answerOf s i = .error .invalidLength ↔ s.cstatus = .ready ∧ i.wellFormed = false := by
  simp [answerOf_eq_error_iff]

/-- A list call whose operation cannot itself answer InvalidLength gives it for the length alone (R53). -/
theorem listCall_eq_invalidLength_iff {L : Nat} {s : State} {bits : List Bit} {op : BitVec L → Response}
    (hop : ∀ v, op v ≠ .error .invalidLength) (hp : s.phase = .constructed) :
    listCall L s bits op = some (.error .invalidLength) ↔ s.cstatus = .ready ∧ bits.length ≠ L := by
  cases h : s.cstatus with
  | failed => simp [listCall_failed hp h]
  | ready =>
    by_cases hl : bits.length = L
    · simp [listCall_ready hp h, hl, hop]
    · simp [listCall_wrongLength hp h hl, hl]

/-- Settles O15: on request words the ill-formed operations are the ENCODEs with a reserved field that is not zero, and
on lists the length check is the only source of the error. -/
theorem invalidLengthExactlyForWrongLengths : Obligations.InvalidLengthExactlyForWrongLengths :=
  ⟨fun _ req => answerOf_eq_invalidLength_iff.trans (and_congr_right' (wellFormed_decodeRequest_eq_false_iff req)),
    fun _ _ => listCall_eq_invalidLength_iff nofun, fun _ _ => listCall_eq_invalidLength_iff nofun,
    fun _ _ h => Bool.noConfusion (answerOf_eq_invalidLength_iff.mp h).2, responseWord_invalidLength⟩

/-! ### ConstructionFatal (R91) -/

theorem constructedCStatus_eq_failed {gp : GMat} (h : ¬Invertible (leadingBlock gp)) :
    constructedCStatus gp = .failed :=
  (constructed_of_error ((eliminate_eq_error_iff gp).mpr h)).1

theorem cstatusPort_failed {s : State} (h : s.cstatus = .failed) : s.cstatusPort = 0#1 := by
  rw [State.cstatusPort, h, cstatusBit]

theorem exec_failed {s : State} (h : s.cstatus = .failed) (i : Instr) :
    exec i s = .next { s with responses := s.responses ++ [0x4000#16] } := by
  rw [exec_eq_respond, answerOf_failed h, State.respond, responseWord_constructionFatal]

/-- A step that changes `CSTATUS` takes a reset event, the next input once construction has completed, and leaves
what construction gives: waiting and performing a request leave it (R24). -/
theorem stepWith_cstatus_ne {gp : GMat} {s t : State} (h : stepWith gp s = .next t)
    (hne : t.cstatus ≠ s.cstatus) :
    (∃ pre rest, s.inputs = pre ++ .reset :: rest ∧ (s.phase = .constructed → pre = [])) ∧
      t.cstatus = constructedCStatus gp := by
  obtain ⟨rfl, -⟩ | ⟨pre, rest, hi, -, hpre, rfl⟩ | ⟨req, rest, -, -, rfl⟩ := stepWith_next_cases h
  · exact absurd rfl hne
  · exact ⟨⟨pre, rest, hi, hpre⟩, rfl⟩
  · exact absurd rfl hne

/-- Settles O35: a failed elimination leaves FAILED, under which every operation answers the error, and only
construction writes `CSTATUS`. -/
theorem constructionFatalIsStickyUntilAnInvertibleReset :
    Obligations.ConstructionFatalIsStickyUntilAnInvertibleReset := by
  refine ⟨fun gp s hsingular => ?_, fun i s h => exec_failed h i, fun gp s t hs hstep ht => ?_⟩
  · have hfailed : (s.construct gp).cstatus = .failed := constructedCStatus_eq_failed hsingular
    exact ⟨hfailed, cstatusPort_failed hfailed⟩
  · have hne : t.cstatus ≠ s.cstatus := by simp [hs, ht]
    obtain ⟨hreset, hconstructed⟩ := stepWith_cstatus_ne hstep hne
    exact ⟨hreset, (constructedCStatus_eq_ready_iff gp).mp (hconstructed.symm.trans ht)⟩

/-! ### What an error reports (R93) -/

theorem errorCode_ne_zero (e : CodecError) : errorCode e ≠ 0#3 := by
  cases e <;> decide

/-- Settles O16: answering is all that `exec` does, and an error's response word is its code and zeros. -/
theorem errorsReportTheirCodeAndChangeNothing : Obligations.ErrorsReportTheirCodeAndChangeNothing := by
  intro i s e h
  refine ⟨?_, errorCode_ne_zero e⟩
  rw [exec_eq_respond, h, State.respond, responseWord]

/-! ### The order of the checks (R96) -/

theorem errField_responseWord_eq_zero {r : Response} (h : ∀ e, r ≠ .error e) : errField (responseWord r) = 0#3 := by
  cases r with
  | codeword c => exact errField_codeword c
  | decoded d st => exact errField_decoded d st
  | error e => exact absurd rfl (h e)

/-- The reserved field of an ENCODE is all that makes a request ill-formed. -/
theorem wellFormed_decodeRequest {req : RequestWord} (h : opField req = true ∨ rsvdField req = 0#5) :
    (decodeRequest req).wellFormed = true := by
  rw [← Bool.not_eq_false, wellFormed_decodeRequest_eq_false_iff]
  rintro ⟨hop, hrsvd⟩
  obtain h | h := h
  · simp [hop] at h
  · exact hrsvd h

/-- Settles O17: `CSTATUS` decides first, then the reserved field, or the length of the list. -/
theorem constructionFatalComesBeforeInvalidLength : Obligations.ConstructionFatalComesBeforeInvalidLength := by
  refine ⟨fun s req => ⟨fun h => ?_, fun h hop hrsvd => ?_, fun h hreq => ?_⟩,
    fun s bits hp h => ⟨listCall_failed hp h, listCall_failed hp h⟩⟩
  · rw [answer, answerOf_failed h, responseWord_constructionFatal]
  · have hwf := (wellFormed_decodeRequest_eq_false_iff req).mpr ⟨hop, hrsvd⟩
    rw [answer, answerOf_of_not_wellFormed h hwf, responseWord_invalidLength]
  · exact errField_responseWord_eq_zero (answerOf_ne_error_of_wellFormed h (wellFormed_decodeRequest hreq))

/-! ### DimensionMismatch (R94) -/

/-- A check that raises `e` when `p` fails raises it only then. -/
theorem dite_ok_error_eq_error_iff {α : Type} {p : Prop} [Decidable p] {f : p → α} {e : CodecError} :
    (if h : p then Except.ok (f h) else Except.error e) = Except.error e ↔ ¬p := by
  by_cases h : p <;> simp [h]

theorem anyDot_eq_error_iff (u v : AnyVec) : anyDot u v = .error .dimensionMismatch ↔ u.len ≠ v.len :=
  dite_ok_error_eq_error_iff.trans ne_comm

theorem anyRowXor_eq_error_iff (u v : AnyVec) : anyRowXor u v = .error .dimensionMismatch ↔ u.len ≠ v.len :=
  dite_ok_error_eq_error_iff.trans ne_comm

theorem anyVecMulMatrix_eq_error_iff (v : AnyVec) (M : AnyMat) :
    anyVecMulMatrix v M = .error .dimensionMismatch ↔ v.len ≠ M.rows :=
  dite_ok_error_eq_error_iff

theorem anyMatMul_eq_error_iff (A B : AnyMat) : anyMatMul A B = .error .dimensionMismatch ↔ A.cols ≠ B.rows :=
  dite_ok_error_eq_error_iff.trans ne_comm

/-- Settles O18: each primitive has one check, a request has two other errors, and construction has ConstructionFatal
only. -/
theorem dimensionMismatchOnlyFromMismatchedOperands : Obligations.DimensionMismatchOnlyFromMismatchedOperands :=
  ⟨fun u v => ⟨anyDot_eq_error_iff u v, anyRowXor_eq_error_iff u v⟩, anyVecMulMatrix_eq_error_iff,
    anyMatMul_eq_error_iff, fun _ _ h => by simp [answerOf_eq_error_iff] at h, fun _ h => nomatch eliminate_error h⟩

end Sys2Proof.Machine
end

section
/-! PROOFS. R28, R105, R107: what a reset event leaves, and why resets among the requests change no response. -/

namespace Sys2Proof.Machine

/-! ### One reset event (R28, R105) -/

theorem cstatusPort_ready {s : State} (h : s.cstatus = .ready) : s.cstatusPort = 1#1 := by
  rw [State.cstatusPort, h, cstatusBit]

/-- Settles O32: the step runs construction, whose elimination answers the product with the inverse of the leading
block, or fails when there is none. -/
theorem resetRunsConstruction : Obligations.ResetRunsConstruction := by
  intro gp s rest hi
  refine ⟨_, stepWith_reset hi, rfl, rfl, rfl, fun B hBA _ => ?_, fun hsingular => ?_⟩
  · obtain ⟨hready, hg, hh⟩ := constructed_of_ok (eliminate_of_left_inverse hBA)
    exact ⟨hready, cstatusPort_ready hready, hg, hh⟩
  · have hfailed := constructedCStatus_eq_failed hsingular
    exact ⟨hfailed, cstatusPort_failed hfailed⟩

/-! ### Resets among the requests (R107) -/

/-- Construction establishes the invariant from any state (R28). -/
theorem holdsConstruction_construct (gp : GMat) (s : State) : HoldsConstruction gp (s.construct gp) :=
  fun _ => ⟨rfl, fun _ => ⟨rfl, rfl⟩⟩

section holdsConstruction
variable {gp : GMat} {s t : State} (hs : s.phase = .constructed) (hcs : HoldsConstruction gp s)
  (ht : t.phase = .constructed) (hct : HoldsConstruction gp t)
include hs hcs ht hct

/-- Two constructed blocks that hold what one `G_PRIME` left have the same registers, but for the matrices of a
FAILED block. -/
theorem registers_eq_of_holdsConstruction :
    t.cstatus = s.cstatus ∧ (s.cstatus = .ready → t.gRow = s.gRow ∧ t.hRow = s.hRow) := by
  obtain ⟨hsc, hsm⟩ := hcs hs
  obtain ⟨htc, htm⟩ := hct ht
  have hc : t.cstatus = s.cstatus := htc.trans hsc.symm
  refine ⟨hc, fun hready => ?_⟩
  obtain ⟨hsg, hsh⟩ := hsm hready
  obtain ⟨htg, hth⟩ := htm (hc.trans hready)
  exact ⟨htg.trans hsg.symm, hth.trans hsh.symm⟩

/-- They answer alike: a FAILED block does not read its matrices. -/
theorem answer_eq_of_holdsConstruction : answer t = answer s := by
  obtain ⟨hc, hm⟩ := registers_eq_of_holdsConstruction hs hcs ht hct
  funext req
  rw [answer, answer]
  cases hstatus : s.cstatus with
  | failed => rw [answerOf_failed hstatus, answerOf_failed (hc.trans hstatus)]
  | ready =>
    obtain ⟨hg, hh⟩ := hm hstatus
    rw [answerOf_congr hc hg hh]

end holdsConstruction

/-- A constructed block takes any next event whole: a request is answered, a reset is not, and after either the
registers hold what construction left. -/
theorem stepWith_event {gp : GMat} {s : State} {e : Event} {rest : List Event} (hs : s.phase = .constructed)
    (hcs : HoldsConstruction gp s) (hi : s.inputs = e :: rest) :
    ∃ t, stepWith gp s = .next t ∧ t.responses = s.responses ++ (requestsOf [e]).map (answer s) ∧
      t.inputs = rest ∧ t.phase = .constructed ∧ HoldsConstruction gp t := by
  cases e with
  | reset =>
    exact ⟨_, stepWith_reset hi, (List.append_nil _).symm, rfl, rfl, holdsConstruction_construct gp _⟩
  | request req => exact ⟨_, stepWith_request hs hi, rfl, rfl, hs, hcs⟩

theorem requestsOf_cons (e : Event) (rest : List Event) :
    requestsOf (e :: rest) = requestsOf [e] ++ requestsOf rest := by
  cases e <;> rfl

/-- A run over all that is pending: every request is answered as the starting state answers it. -/
theorem runWith_events {gp : GMat} {s : State} {evs : List Event} (hs : s.phase = .constructed)
    (hcs : HoldsConstruction gp s) (hi : s.inputs = evs) :
    ∃ t, runWith gp evs.length s = .next t ∧ t.responses = s.responses ++ (requestsOf evs).map (answer s) ∧
      t.inputs = [] ∧ t.phase = .constructed ∧ HoldsConstruction gp t := by
  induction evs generalizing s with
  | nil => exact ⟨s, rfl, (List.append_nil _).symm, hi, hs, hcs⟩
  | cons e rest ih =>
    obtain ⟨u, hstep, huresp, hui, hu, hcu⟩ := stepWith_event hs hcs hi
    obtain ⟨t, hrun, htresp, hti, ht, hct⟩ := ih hu hcu hui
    refine ⟨t, by rw [List.length_cons, runWith_succ hstep, hrun], ?_, hti, ht, hct⟩
    rw [htresp, huresp, answer_eq_of_holdsConstruction hs hcs hu hcu, requestsOf_cons e rest, List.map_append,
      List.append_assoc]

/-- Settles O14: the last state of the run holds the same construction as the first, and so the same registers. -/
theorem resetsAmongRequestsChangeNoResponse : Obligations.ResetsAmongRequestsChangeNoResponse := by
  intro gp s hs hcs
  obtain ⟨t, hrun, hresp, hi, ht, hct⟩ := runWith_events hs hcs rfl
  exact ⟨t, hrun, hresp, hi, ht, registers_eq_of_holdsConstruction hs hcs ht hct⟩

end Sys2Proof.Machine
end

section
/-! PROOFS. R36, R39 to R41, R48: request words and operations, and the step that performs one. -/

namespace Sys2Proof.Machine

/-- Settles O2: an operation's fields are read back from its word, and a word is its fields side by side. -/
theorem requestWordsAndOperationsAreInverse : Obligations.RequestWordsAndOperationsAreInverse :=
  ⟨decodeRequest_encodeRequest, encodeRequest_decodeRequest⟩

/-- Settles O1: each word is the request word of its operation. -/
theorem decodingOfWrittenOutWords : Obligations.DecodingOfWrittenOutWords :=
  ⟨decodeRequest_encodeRequest (.encode 0b00000#5 0b110110#6),
    decodeRequest_encodeRequest (.encode 0b10000#5 0b000001#6),
    decodeRequest_encodeRequest (.decode 0b01111110010#11),
    decodeRequest_encodeRequest (.decode 0b10000000001#11)⟩

theorem stepWith_request_eq_exec {gp : GMat} {s : State} {req : RequestWord} {rest : List Event}
    (hp : s.phase = .constructed) (hi : s.inputs = .request req :: rest) :
    stepWith gp s = exec (decodeRequest req) (s.withInputs rest) := by
  rw [stepWith_request hp hi, exec_eq_respond, answerOf_withInputs]

/-- Settles O3: the block's own `G_PRIME` is one of those the lemma speaks of. -/
theorem stepPerformsDecodedRequest : Obligations.StepPerformsDecodedRequest :=
  fun _ _ _ _ hp hi => ⟨stepWith_request_eq_exec hp hi, stepWith_request_eq_exec hp hi⟩

/-- Settles O12: neither response reads the register that is replaced. -/
theorem decodeIgnoresGAndEncodeIgnoresH : Obligations.DecodeIgnoresGAndEncodeIgnoresH := by
  intro s G H rsvd data cw
  refine ⟨⟨_, exec_eq_respond _ s, ?_⟩, ⟨_, exec_eq_respond _ s, ?_⟩⟩
  · have hsame : decodeResponse { s with gRow := G } cw = decodeResponse s cw := decodeResponse_congr rfl rfl cw
    rw [exec_eq_respond, answerOf, hsame]
    rfl
  · have hsame : encodeResponse { s with hRow := H } rsvd data = encodeResponse s rsvd data :=
      encodeResponse_congr rfl rfl rsvd data
    rw [exec_eq_respond, answerOf, hsame]
    rfl

/-! ### List calls and the phase (R53) -/

theorem isSome_listCall_iff {L : Nat} {s : State} {bits : List Bit} {op : BitVec L → Response} :
    (listCall L s bits op).isSome = true ↔ s.phase = .constructed := by
  cases hp : s.phase with
  | beforeConstruction => simp [listCall_before hp]
  | constructed =>
    cases h : s.cstatus with
    | failed => simp [listCall_failed hp h]
    | ready =>
      rw [listCall_ready hp h]
      split <;> simp

/-- Settles O58: both calls are list calls. -/
theorem listCallsRespondExactlyWhenConstructed : Obligations.ListCallsRespondExactlyWhenConstructed :=
  fun _ _ => ⟨isSome_listCall_iff, isSome_listCall_iff⟩

end Sys2Proof.Machine
end

section
/-! PROOFS. R21 to R24, R28, R97: what every step keeps, and what only construction writes. -/

namespace Sys2Proof.Machine

/-! ### Waiting and going on (R97, R106) -/

/-- Settles O5, one lemma per reason to wait. -/
theorem blockWithNothingToTakeWaits : Obligations.BlockWithNothingToTakeWaits := by
  rintro gp s (hempty | ⟨hp, hr⟩)
  · exact stepWith_wait hempty
  · exact stepWith_stuck hp hr

/-- Settles O6: in each of the three cases of a step there is a next state, and none goes back before construction. -/
theorem everyStepGoesOn : Obligations.EveryStepGoesOn := by
  intro gp s
  obtain ⟨hstep, -⟩ | ⟨pre, post, -, -, -, hstep⟩ | ⟨req, rest, -, -, hstep⟩ := stepWith_cases gp s
  · exact ⟨_, hstep, id⟩
  · exact ⟨_, hstep, fun _ => rfl⟩
  · exact ⟨_, hstep, id⟩

/-- R97, along a run. -/
theorem exists_runWith_eq_next (gp : GMat) (n : Nat) (s : State) : ∃ t, runWith gp n s = .next t := by
  induction n generalizing s with
  | zero => exact ⟨s, rfl⟩
  | succ n ih =>
    obtain ⟨t, hstep, -⟩ := everyStepGoesOn gp s
    obtain ⟨u, hrun⟩ := ih t
    exact ⟨u, (runWith_succ hstep n).trans hrun⟩

/-! ### A step and the registers (R24) -/

/-- INVERSION. A step leaves the registers alone, or takes a reset event and runs construction. -/
theorem sameBlock_or_construct_of_stepWith {gp : GMat} {s t : State} (h : stepWith gp s = .next t) :
    SameBlock s t ∨
    ∃ pre rest, s.inputs = pre ++ .reset :: rest ∧ (s.phase = .constructed → pre = []) ∧
      t = (s.withInputs (pre ++ rest)).construct gp := by
  obtain ⟨rfl, -⟩ | ⟨pre, rest, hi, -, hpre, rfl⟩ | ⟨req, rest, -, -, rfl⟩ := stepWith_next_cases h
  · exact .inl ⟨rfl, rfl, rfl, rfl⟩
  · exact .inr ⟨pre, rest, hi, hpre, rfl⟩
  · exact .inl ⟨rfl, rfl, rfl, rfl⟩

/-- INVARIANTS. A property of the registers that construction establishes is kept by every step. -/
theorem stepWith_keeps {gp : GMat} {I : State → Prop}
    (hregisters : ∀ {s t : State}, SameBlock s t → I s → I t) (hconstruct : ∀ s : State, I (s.construct gp))
    {s t : State} (hs : I s) (h : stepWith gp s = .next t) : I t := by
  obtain hsame | ⟨pre, rest, -, -, rfl⟩ := sameBlock_or_construct_of_stepWith h
  · exact hregisters hsame hs
  · exact hconstruct _

/-- Settles O10: answering is all that `exec` does, and a step that leaves no register alone is a construction. -/
theorem onlyConstructionWritesRegisters : Obligations.OnlyConstructionWritesRegisters := by
  constructor
  · intro i s t h
    rw [exec_eq_respond] at h
    cases h
    exact ⟨rfl, rfl, rfl, rfl, rfl, _, rfl⟩
  · intro gp s t h hne
    obtain ⟨-, hc, hg, hh⟩ | ⟨pre, rest, hi, hpre, rfl⟩ := sameBlock_or_construct_of_stepWith h
    · simp [hc, hg, hh] at hne
    · exact ⟨pre, rest, hi, rfl, hpre⟩

/-! ### The reset state (R28, R109) -/

/-- The reset state is what construction makes of a block before its first reset. -/
theorem resetWith_eq_construct (gp : GMat) : State.resetWith gp = State.powerOn.construct gp := rfl

/-- Settles O33: the reset event is the next input, and with it taken the block is as it was built. -/
theorem firstResetGivesTheResetState : Obligations.FirstResetGivesTheResetState :=
  have hfirst (gp : GMat) : stepWith gp (State.powerOn.issue [.reset]) = .next (State.resetWith gp) :=
    stepWith_reset rfl
  ⟨hfirst, hfirst Config.gPrime⟩

/-! ### The shapes of `G` and `H` (R21, R22) -/

theorem structural_congr {s t : State} (h : SameBlock s t) (hs : Structural s) : Structural t := by
  obtain ⟨hp, hc, hg, hh⟩ := h
  unfold Structural
  rwa [hp, hc, hg, hh]

/-- A construction that ends READY is an elimination that succeeded, and this gives a systematic matrix. -/
theorem structural_construct (gp : GMat) (s : State) : Structural (s.construct gp) := by
  intro _ hready
  obtain ⟨G, hG⟩ := exists_ok_of_ready hready
  obtain ⟨-, hg, hh⟩ := constructed_of_ok hG
  rw [construct_gRow, construct_hRow, hg, hh]
  exact ⟨systematic_of_eliminate hG, rfl⟩

/-- Settles O36: construction establishes the shapes, and nothing else writes a register. -/
theorem stepKeepsStructure : Obligations.StepKeepsStructure :=
  fun gp _ _ => stepWith_keeps structural_congr (structural_construct gp)

/-- Settles O37: the reset state is a constructed one. -/
theorem resetStateHasStructure : Obligations.ResetStateHasStructure :=
  have hreset (gp : GMat) : Structural (State.resetWith gp) := structural_construct gp State.powerOn
  ⟨hreset, hreset Config.gPrime⟩

/-! ### What construction left (R24) -/

theorem holdsConstruction_congr {gp : GMat} {s t : State} (h : SameBlock s t) (hs : HoldsConstruction gp s) :
    HoldsConstruction gp t := by
  obtain ⟨hp, hc, hg, hh⟩ := h
  unfold HoldsConstruction
  rwa [hp, hc, hg, hh]

theorem holdsConstruction_resetWith (gp : GMat) : HoldsConstruction gp (State.resetWith gp) :=
  holdsConstruction_construct gp State.powerOn

/-- Settles O38: construction leaves its own results, and nothing else writes a register. -/
theorem registersKeepWhatConstructionLeft : Obligations.RegistersKeepWhatConstructionLeft :=
  ⟨holdsConstruction_resetWith,
    fun gp _ _ => stepWith_keeps holdsConstruction_congr (holdsConstruction_construct gp)⟩

end Sys2Proof.Machine
end

section
/-! PROOFS. R108: requests sent before construction has completed. -/

namespace Sys2Proof.Machine

section before
variable {gp : GMat} {s : State} (hp : s.phase = .beforeConstruction)
include hp

/-- What a step can do before construction: the block waits, or takes the first reset event (log entry 3). -/
theorem stepWith_cases_before (gp : GMat) :
    (.reset ∉ s.inputs ∧ stepWith gp s = .next s) ∨
    ∃ rest, takeReset s.inputs = some rest ∧ stepWith gp s = .next ((s.withInputs rest).construct gp) := by
  cases ht : takeReset s.inputs with
  | none =>
    have hr := takeReset_eq_none.mp ht
    exact .inl ⟨hr, stepWith_stuck hp hr⟩
  | some rest => exact .inr ⟨rest, rfl, stepWith_takeReset hp ht⟩

theorem runWith_stuck (hr : .reset ∉ s.inputs) (n : Nat) : runWith gp n s = .next s := by
  induction n with
  | zero => rfl
  | succ n ih => rw [runWith_succ (stepWith_stuck hp hr), ih]

/-- A step before construction answers nothing, keeps the requests, and completes construction by a reset event
only. -/
theorem stepWith_before {t : State} (h : stepWith gp s = .next t) :
    t.responses = s.responses ∧ requestsOf t.inputs = requestsOf s.inputs ∧
      (t.phase = .constructed → .reset ∈ s.inputs) := by
  obtain ⟨-, hstep⟩ | ⟨rest, ht, hstep⟩ := stepWith_cases_before hp gp
  · cases hstep.symm.trans h
    exact ⟨rfl, rfl, fun hc => by simp [hp] at hc⟩
  · cases hstep.symm.trans h
    have hr : .reset ∈ s.inputs := by
      by_contra hr
      simp [takeReset_eq_none.mpr hr] at ht
    exact ⟨rfl, requestsOf_takeReset ht, fun _ => hr⟩

/-- R108: a block that waits answers nothing, and construction overwrites every register, so what they held before
enters no response. -/
theorem runWith_before_responses (gp : GMat) (n : Nat) (c : CStatus) (G : GMat) (H : HMat) : ∃ t t' : State,
    runWith gp n s = .next t ∧ runWith gp n { s with cstatus := c, gRow := G, hRow := H } = .next t' ∧
      t.responses = t'.responses := by
  obtain ⟨hr, -⟩ | ⟨rest, ht, hstep⟩ := stepWith_cases_before hp gp
  · exact ⟨s, _, runWith_stuck hp hr n,
      runWith_stuck (s := { s with cstatus := c, gRow := G, hRow := H }) hp hr n, rfl⟩
  · have hstep' : stepWith gp { s with cstatus := c, gRow := G, hRow := H } =
        .next ((s.withInputs rest).construct gp) := stepWith_takeReset hp ht
    cases n with
    | zero => exact ⟨s, _, rfl, rfl, rfl⟩
    | succ n =>
      obtain ⟨t, hrun⟩ := exists_runWith_eq_next gp n ((s.withInputs rest).construct gp)
      exact ⟨t, t, (runWith_succ hstep n).trans hrun, (runWith_succ hstep' n).trans hrun, rfl⟩

end before

/-- Settles O4: before construction the block waits or runs construction. -/
theorem requestsBeforeConstructionGetNoResponse : Obligations.RequestsBeforeConstructionGetNoResponse :=
  fun gp _ hp => ⟨fun _ => stepWith_before hp, fun hr => runWith_stuck hp hr, runWith_before_responses hp gp⟩

/-- Settles O59: the first step takes a reset event and keeps the requests, and the run goes on from a constructed block
over what stays pending. -/
theorem stuckRequestsGoOnAfterConstruction : Obligations.StuckRequestsGoOnAfterConstruction := by
  intro gp s hp hr
  obtain ⟨hno, -⟩ | ⟨rest, ht, hstep⟩ := stepWith_cases_before hp gp
  · exact absurd hr hno
  · obtain ⟨t, hrun, hresp, hi, htp, -⟩ :=
      runWith_events rfl (holdsConstruction_construct gp (s.withInputs rest)) rfl
    have hanswer : answer ((s.withInputs rest).construct gp) = answer (State.resetWith gp) :=
      answer_eq_of_holdsConstruction rfl (holdsConstruction_resetWith gp) rfl (holdsConstruction_construct gp _)
    refine ⟨t, ?_, htp, hi, ?_⟩
    · rw [← length_takeReset ht, runWith_succ hstep]
      exact hrun
    · rw [hresp, hanswer, ← requestsOf_takeReset ht]
      rfl

end Sys2Proof.Machine
end

section
/-! PROOFS. R58, R63, R18: `matMul`, the loop invariant of the elimination, and the reference matrices. -/

namespace Sys2Proof.Machine

theorem anyMatMul_mk {a b c : Nat} (A : Mat a b) (B : Mat b c) :
    anyMatMul ⟨a, b, A⟩ ⟨b, c, B⟩ = .ok ⟨a, c, matMul A B⟩ :=
  dif_pos rfl

theorem bit_matMul {a b c : Nat} (A : Mat a b) (B : Mat b c) (i : Fin a) (j : Fin c) :
    bit (matMul A B) i j = dot (row A i) (column B j) := by
  rw [bit, row_matMul, getLsbD_vecMulMatrix_fin]

/-- Settles O25: a row of the product is the row of the first matrix times the second. -/
theorem matMulEntriesAreDotsOfRowsAndColumns : Obligations.MatMulEntriesAreDotsOfRowsAndColumns :=
  ⟨fun _ _ _ => bit_matMul, fun A B => (anyMatMul_eq_error_iff A B).mpr, fun _ _ _ => anyMatMul_mk, by decide⟩

/-- Settles O26: the invariant holds of no columns, and each pass adds one. -/
theorem eliminationLeavesUnitColumnsBehind : Obligations.EliminationLeavesUnitColumnsBehind :=
  fun _ _ _ hn h => unitColumns_eliminateColumns hn h

/-! ### WF_SECDED said of the rows of P (R17) -/

/-- The columns of a derived `H`, and the column past the last, are the rows of `P`, the four unit vectors and zero. -/
theorem column_deriveH_eq_append (G : GMat) :
    (fun i : Fin 11 => column (deriveH G) i) =
      Fin.append (fun j : Fin 6 => row (parityBlock G) j) (fun t : Fin 5 => onehot 4 t) := by
  funext i
  induction i using Fin.addCases (m := 6) (n := 5) with
  | left j =>
    rw [Fin.append_left]
    exact column_deriveH_low G j
  | right t =>
    rw [Fin.append_right]
    induction t using Fin.lastCases with
    | last => exact (column_last _).trans (onehot_eq_zero le_rfl).symm
    | cast t => exact column_deriveH_high G t

theorem injective_onehot_four : Function.Injective fun t : Fin 5 => onehot 4 t := by decide

/-- Two or more 1 bits: neither zero nor a unit vector. -/
theorem two_le_popcount_iff_ne_onehot (v : BitVec 4) : 2 ≤ popcount v ↔ ∀ t : Fin 5, v ≠ onehot 4 t := by
  revert v; decide

theorem wfSecded_deriveH_iff (G : GMat) : WfSecded (deriveH G) ↔ WfParity (parityBlock G) := by
  rw [wfSecded_iff_injective, column_deriveH_eq_append, Fin.append_injective_iff, Function.injective_iff_pairwise_ne]
  simp only [WfParity, two_le_popcount_iff_ne_onehot, injective_onehot_four, true_and]
  rfl

theorem encodeWord_scenarioWord_iff {G : GMat} (hG : Systematic G) :
    encodeWord G 0b110110#6 = 0x3F6#11 ↔ ScenarioOne (parityBlock G) := by
  refine ⟨fun h => ?_, encodeWord_of_scenarioOne hG⟩
  obtain ⟨-, -, -, hsplit⟩ := codewordHasEvenParity G 0b110110#6
  obtain ⟨-, hparity⟩ := hsplit hG
  rw [ScenarioOne, ← vecMulMatrix_scenarioWord, ← hparity, h]
  rfl

/-- Settles O52: the columns of `H` are the rows of `P` and the unit vectors, and the parity bits of the codeword of
scenario 1 are the sum of four rows of `P`. -/
theorem wellFormedCodeSaidOfColumnsAndOfRows : Obligations.WellFormedCodeSaidOfColumnsAndOfRows :=
  fun G hG => ⟨wfSecded_deriveH_iff G, encodeWord_scenarioWord_iff hG⟩

/-! ### The reference matrices (R18) -/

theorem findPivot_gPrimeRef : findPivot gPrimeRef 0 = some 1 ∧ bit gPrimeRef 0 0 = false := by decide

theorem eliminate_gPrimeRef : eliminate gPrimeRef = .ok gRef := by decide

theorem parityBlock_gRef : parityBlock gRef = pRef := by decide

theorem deriveH_gRef : deriveH gRef = hRef := by decide

theorem column_hRef : (List.range 10).map (column hRef) = hRefColumns := by decide

theorem mem_hRefUnused_iff :
    ∀ s : Syndrome, s ∈ hRefUnused ↔ s ≠ 0#4 ∧ ∀ j : Fin 10, column hRef j ≠ s := by decide

theorem wfParity_pRef : WfParity pRef := by decide

theorem wfSecded_hRef : WfSecded hRef := by
  rw [← deriveH_gRef, wfSecded_deriveH_iff, parityBlock_gRef]
  exact wfParity_pRef

/-- Settles O60: the tables by evaluation; the rest follows from the elimination's success and from the rows of `P`. -/
theorem referenceInstanceIsAsTabulated : Obligations.ReferenceInstanceIsAsTabulated := by
  obtain ⟨hpivot, hbit⟩ := findPivot_gPrimeRef
  obtain ⟨hready, hg, hh⟩ := constructed_of_ok eliminate_gPrimeRef
  have hinv : Inv gPrimeRef := (exists_eliminate_eq_ok_iff gPrimeRef).mp ⟨gRef, eliminate_gPrimeRef⟩
  exact ⟨hpivot, hbit, eliminate_gPrimeRef, systematic_of_eliminate eliminate_gPrimeRef, parityBlock_gRef,
    deriveH_gRef, column_hRef, mem_hRefUnused_iff, hinv, wfSecded_hRef, wfParity_pRef, by decide, hready, hg,
    hh.trans deriveH_gRef⟩

end Sys2Proof.Machine
end

section
/-! PROOFS. R89, R90: the machine on one and two errors, and the decoder beyond two. -/

namespace Sys2Proof.Machine

/-- Settles O55: a structural READY block has a systematic `G` and its derived `H`, so its responses carry the results
of R89. -/
theorem machineCorrectsOneErrorAndDetectsTwo : Obligations.MachineCorrectsOneErrorAndDetectsTwo := by
  intro s word hs hphase hready hwf
  obtain ⟨hG, hH⟩ := hs hphase hready
  rw [hH] at hwf
  have hround : RoundTrip s.gRow s.hRow := hH ▸ decodeWord_encodeWord hG
  have hsingle : SingleBitCorrection s.gRow s.hRow := hH ▸ singleBitCorrection_of_wfSecded hG hwf
  have hdouble : DoubleBitDetection s.gRow s.hRow := hH ▸ (doubleBitDetection_iff hG).mpr hwf
  refine ⟨encodeWord s.gRow word, ?_⟩
  intro t
  have ht : t.cstatus = .ready := hready
  refine ⟨exec_encode_ready hready word, ?_, fun i => ?_, fun i j hij => ?_⟩
  · rw [exec_decode_ready ht (hround word), responseWord_valid]
  · rw [exec_decode_ready ht (hsingle word i), responseWord_corrected]
  · rw [exec_decode_ready ht (hdouble word i j hij), responseWord_uncorrectable]

/-! ### Error patterns of weight three or more (R90) -/

theorem popcountUpTo_congr {L M : Nat} {u : BitVec L} {v : BitVec M} {n : Nat}
    (h : ∀ i, i < n → u.getLsbD i = v.getLsbD i) : popcountUpTo u n = popcountUpTo v n := by
  induction n with
  | zero => rfl
  | succ n ih => rw [popcountUpTo, popcountUpTo, h n (Nat.lt_succ_self n), ih fun i hi => h i (Nat.lt_succ_of_lt hi)]

/-- The overall bit adds at most one flip to those of the core. -/
theorem popcount_le_popcount_coreOf (e : Codeword) : popcount e ≤ popcount (coreOf e) + 1 := by
  have hcore : popcountUpTo e 10 = popcount (coreOf e) :=
    popcountUpTo_congr fun i hi => by rw [getLsbD_coreOf, decide_eq_true hi, Bool.true_and]
  have hoverall := Bool.toNat_le (e.getLsbD 10)
  rw [popcount, popcountUpTo, hcore]
  omega

theorem coreOf_ne_of_popcount {e : Codeword} {x : CoreWord} (hx : popcount x ≤ 1) (he : 3 ≤ popcount e) :
    coreOf e ≠ x := by
  rintro rfl
  have hle := popcount_le_popcount_coreOf e
  omega

theorem popcount_onehot_core : ∀ j : Fin 10, popcount (onehot 10 j) ≤ 1 := by decide

/-- A core with no data bit and no syndrome is zero: its syndrome is its parity bits. -/
theorem eq_zero_of_dataOf_eq_zero {G : GMat} {x : CoreWord} (hd : dataOf x = 0#6)
    (hs : syndrome (deriveH G) x = 0#4) : x = 0#10 := by
  rw [coreWord_eq_append x, hd] at hs ⊢
  rw [syndrome_append, vecMulMatrix_zero, BitVec.xor_zero] at hs
  rw [hs]
  rfl

/-- Errors in the data bits are what the received data differs by. -/
theorem dataOf_coreOf_encodeWord_xor {G : GMat} (hG : Systematic G) (word : DataWord) (e : Codeword) :
    dataOf (coreOf (encodeWord G word ^^^ e)) = word ^^^ dataOf (coreOf e) := by
  rw [coreOf_xor, dataOf_xor, coreOf_encodeWord, dataOf_systematicCore hG]

/-- Two different cores with one syndrome differ in the data bits, so taking one for the other gives wrong data. -/
theorem xor_dataOf_ne {G : GMat} {x y : CoreWord} (word : DataWord) (hne : x ≠ y)
    (hs : syndrome (deriveH G) x = syndrome (deriveH G) y) : word ^^^ dataOf (x ^^^ y) ≠ word := by
  intro hd
  have hzero : dataOf (x ^^^ y) = 0#6 := by simpa using congrArg (word ^^^ ·) hd
  have hsyndrome : syndrome (deriveH G) (x ^^^ y) = 0#4 := by rw [syndrome_xor, hs, BitVec.xor_self]
  exact hne (BitVec.xor_eq_zero_iff.mp (eq_zero_of_dataOf_eq_zero hzero hsyndrome))

theorem overallOk_encodeWord_xor_of_even (G : GMat) (word : DataWord) {e : Codeword} (h : popcount e % 2 = 0) :
    overallOk (encodeWord G word ^^^ e) = true := by
  rwa [overallOk_encodeWord_xor, overallOk_eq_true_iff_popcount]

theorem overallOk_encodeWord_xor_of_odd (G : GMat) (word : DataWord) {e : Codeword} (h : popcount e % 2 = 1) :
    overallOk (encodeWord G word ^^^ e) = false := by
  rwa [overallOk_encodeWord_xor, overallOk_eq_false_iff_popcount]

/-- In a well-formed code a column matches itself alone. -/
theorem popcount_matchMask_column {H : HMat} (hwf : WfSecded H) (j : Fin 10) :
    popcount (matchMask H (column H j)) = 1 :=
  (popcount_matchMask_eq_one_iff _ _).mpr ⟨j, rfl, fun k hk => by_contra fun hne => hwf.2 k j hne hk⟩

section errors
variable {G : GMat} (hG : Systematic G) (word : DataWord) {e : Codeword}
include hG

/-- An undetected error of weight three or more has the core of another codeword. -/
theorem dataOf_ne_of_syndrome_zero (he : 3 ≤ popcount e) (hs : syndrome (deriveH G) (coreOf e) = 0#4) :
    dataOf (coreOf (encodeWord G word ^^^ e)) ≠ word := by
  have hne : coreOf e ≠ 0#10 := coreOf_ne_of_popcount (by decide) he
  rw [dataOf_coreOf_encodeWord_xor hG, ← BitVec.xor_zero (x := coreOf e)]
  exact xor_dataOf_ne word hne (hs.trans (syndrome_zero _).symm)

/-- An error of weight three or more with the syndrome of column `j` is taken for an error at bit `j`. -/
theorem decodeWord_miscorrected (hwf : WfSecded (deriveH G)) {j : Fin 10} (he : 3 ≤ popcount e)
    (hodd : popcount e % 2 = 1) (hs : syndrome (deriveH G) (coreOf e) = column (deriveH G) j) :
    ∃ d, d ≠ word ∧ decodeWord (deriveH G) (encodeWord G word ^^^ e) = (some d, .corrected) := by
  have hp := overallOk_encodeWord_xor_of_odd G word hodd
  have hs' := (syndrome_encodeWord_xor hG word e).trans hs
  have hne : column (deriveH G) j ≠ 0#4 := hwf.1 j
  have hone := popcount_matchMask_column hwf j
  refine ⟨_, ?_, by rw [decodeWord_located hp (hs' ▸ hne), hs', locate_of_match hone rfl]⟩
  rw [dataOf_xor, dataOf_coreOf_encodeWord_xor hG, BitVec.xor_assoc, ← dataOf_xor]
  exact xor_dataOf_ne word (coreOf_ne_of_popcount (popcount_onehot_core j) he) (hs.trans (syndrome_onehot _ j).symm)

end errors

/-- Settles O54: the weight of the errors decides the overall check and their columns the syndrome; data is wrong because
what the decoder takes the errors for is another core with their syndrome. -/
theorem moreThanTwoErrorsAreReportedByTheirSyndrome : Obligations.MoreThanTwoErrorsAreReportedByTheirSyndrome := by
  intro G word e hG s result
  have hs : s = syndrome (deriveH G) (coreOf e) := (syndrome_eq_xorColumns _ _).symm
  have hsyndrome : syndrome (deriveH G) (coreOf (encodeWord G word ^^^ e)) = s :=
    (syndrome_encodeWord_xor hG word e).trans hs.symm
  have heven := overallOk_encodeWord_xor_of_even G word (e := e)
  have hodd := overallOk_encodeWord_xor_of_odd G word (e := e)
  refine ⟨fun hw hp h0 => ?_, fun _ hp hne => ?_, fun hw hp h0 => ?_, fun j hw hp hwf hj => ?_,
    fun _ hp hne hno => ?_⟩
  · exact ⟨_, dataOf_ne_of_syndrome_zero hG word (by omega) (hs ▸ h0),
      decodeWord_valid (heven hp) (hsyndrome.trans h0)⟩
  · exact decodeWord_even (heven hp) (hsyndrome ▸ hne)
  · exact ⟨_, dataOf_ne_of_syndrome_zero hG word hw (hs ▸ h0),
      decodeWord_overallFlipped (hodd hp) (hsyndrome.trans h0)⟩
  · exact decodeWord_miscorrected hG word hwf hw hp (hs ▸ hj)
  · have hnone : popcount (matchMask (deriveH G) s) = 0 :=
      (popcount_matchMask_eq_zero_iff _ _).mpr fun j => (hno j).symm
    exact (decodeWord_located (hodd hp) (hsyndrome ▸ hne)).trans
      (locate_of_popcount_ne_one _ (by rw [hsyndrome, hnone]; decide))

end Sys2Proof.Machine
end
